-- ==== Sys2Proof/Word.lean ====
section
/-! DEFINITION. The machine's word, byte and field types (spec 00_scope.md R7, R9, R10; 30_encoding.md R71). -/
namespace Sys2Proof

/-- A register value, an address or an instruction word: 32 bits (R7, R10). -/
abbrev Word := BitVec 32

/-- The unit of memory and of the output stream (R40, R28). -/
abbrev Byte := BitVec 8

/-- A 5-bit register field: every value names a register (R74). -/
abbrev RegIdx := BitVec 5

/-- The 5-bit `shamt` field, which no executed instruction reads (R15). -/
abbrev Shamt := BitVec 5

/-- A 6-bit `opcode` or `funct` field (R71). -/
abbrev Code6 := BitVec 6

/-- The 16-bit immediate field (R71). -/
abbrev Imm16 := BitVec 16

/-- The 26-bit jump target field (R71). -/
abbrev Target26 := BitVec 26

end Sys2Proof
end

