-- ==== Sys2Proof/Syntax.lean ====
section
/-! DEFINITION. The instructions (opcode_table.json: one constructor per row) and the raw field tuples that the packers of 30_encoding.md R75 take. -/
namespace Sys2Proof

/-- One constructor per row of opcode_table.json. A constructor holds EVERY field of its format (R71), those
its instruction ignores too (D3), so that a word and its instruction determine each other. The order of the
operands is the assembler's text order (R96, R97, R98). -/
inductive Instr where
  /-- `add rd, rs, rt` (R130). -/
  | add (rd rs rt : RegIdx) (shamt : Shamt)
  /-- `sub rd, rs, rt` (R131). -/
  | sub (rd rs rt : RegIdx) (shamt : Shamt)
  /-- `and rd, rs, rt` (R132). -/
  | and (rd rs rt : RegIdx) (shamt : Shamt)
  /-- `or rd, rs, rt` (R133). -/
  | or (rd rs rt : RegIdx) (shamt : Shamt)
  /-- The R-type spelling of `syscall`, funct 0x0C, which the core does not execute (R115, C1). -/
  | syscallRtype (rd rs rt : RegIdx) (shamt : Shamt)
  /-- `syscall`, opcode 0x0C, I layout (R72, R180). The assembler spells it `andi rt, rs, imm` (R100). -/
  | syscall (rt rs : RegIdx) (imm : Imm16)
  /-- `lw rt, rs, imm` (R140). -/
  | lw (rt rs : RegIdx) (imm : Imm16)
  /-- `sw rt, rs, imm` (R141). -/
  | sw (rt rs : RegIdx) (imm : Imm16)
  /-- `lui rt, rs, imm` (R150); `rs` is ignored. -/
  | lui (rt rs : RegIdx) (imm : Imm16)
  /-- `ori rt, rs, imm` (R151). -/
  | ori (rt rs : RegIdx) (imm : Imm16)
  /-- `nori rt, rs, imm` (R152). -/
  | nori (rt rs : RegIdx) (imm : Imm16)
  /-- `slti rt, rs, imm` (R154). -/
  | slti (rt rs : RegIdx) (imm : Imm16)
  /-- `beq rt, rs, imm` (R160). -/
  | beq (rt rs : RegIdx) (imm : Imm16)
  /-- `bne rt, rs, imm` (R161). -/
  | bne (rt rs : RegIdx) (imm : Imm16)
  /-- `bgtz rt, rs, imm` (R162); `rt` is ignored. -/
  | bgtz (rt rs : RegIdx) (imm : Imm16)
  /-- `j address` (R170). -/
  | j (target : Target26)
  /-- `jal address` (R171). -/
  | jal (target : Target26)
  /-- `addi rt, rs, imm`: in the assembler's table, not executed by the core (R116, D2). -/
  | addi (rt rs : RegIdx) (imm : Imm16)
  /-- `addiu rt, rs, imm`: in the assembler's table, not executed by the core (R116, D2). -/
  | addiu (rt rs : RegIdx) (imm : Imm16)
  deriving DecidableEq, Repr

/-- The arguments of the packer `create_r` (R75): plain numbers, which need not fit their fields. -/
structure RFields where
  op : Nat
  rs : Nat
  rt : Nat
  rd : Nat
  shamt : Nat
  funct : Nat
  deriving DecidableEq, Repr

/-- The arguments of the packer `create_i` (R75). -/
structure IFields where
  op : Nat
  rs : Nat
  rt : Nat
  imm : Nat
  deriving DecidableEq, Repr

/-- The arguments of the packer `create_j` (R75). -/
structure JFields where
  op : Nat
  target : Nat
  deriving DecidableEq, Repr

end Sys2Proof
end

