-- ==== Sys2Proof/Decode.lean ====
section
/-! DEFINITION. The instruction codec (30_encoding.md R70-R81): fields, packers, the decoder, the encoder, the opcode table, and the byte order of a word (20_memory.md R41, R42). -/
namespace Sys2Proof

/-! ### Byte order -/

/-- The 32-bit word of four bytes, the first in the most significant place (R41, R42). -/
def wordOfBytes (b0 b1 b2 b3 : Byte) : Word := b0 ++ b1 ++ b2 ++ b3

/-- The four bytes of a word, lowest address first (R42, R45). -/
def wordBytes (w : Word) : List Byte :=
  [w.extractLsb' 24 8, w.extractLsb' 16 8, w.extractLsb' 8 8, w.extractLsb' 0 8]

/-! ### Fields (R71) -/

/-- `w[31:26]`. -/
def opcodeOf (w : Word) : Code6 := w.extractLsb' 26 6
/-- `w[25:21]`. -/
def rsOf (w : Word) : RegIdx := w.extractLsb' 21 5
/-- `w[20:16]`. -/
def rtOf (w : Word) : RegIdx := w.extractLsb' 16 5
/-- `w[15:11]`. -/
def rdOf (w : Word) : RegIdx := w.extractLsb' 11 5
/-- `w[10:6]`. -/
def shamtOf (w : Word) : Shamt := w.extractLsb' 6 5
/-- `w[5:0]`. -/
def functOf (w : Word) : Code6 := w.extractLsb' 0 6
/-- `w[15:0]`. -/
def immOf (w : Word) : Imm16 := w.extractLsb' 0 16
/-- `w[25:0]`. -/
def targetOf (w : Word) : Target26 := w.extractLsb' 0 26

/-! ### Decoding -/

/-- The names under which the decoder rejects a word (R80): opcode 0 with an unknown funct, or an unknown
opcode. -/
inductive IllegalWord where
  | unknownFunct (funct : Code6)
  | unknownOpcode (opcode : Code6)
  deriving DecidableEq, Repr

/-- An instruction of format R with the operands of `w`. -/
def withR (make : RegIdx → RegIdx → RegIdx → Shamt → Instr) (w : Word) : Except IllegalWord Instr :=
  .ok (make (rdOf w) (rsOf w) (rtOf w) (shamtOf w))

/-- An instruction of format I with the operands of `w`. -/
def withI (make : RegIdx → RegIdx → Imm16 → Instr) (w : Word) : Except IllegalWord Instr :=
  .ok (make (rtOf w) (rsOf w) (immOf w))

/-- An instruction of format J with the operand of `w`. -/
def withJ (make : Target26 → Instr) (w : Word) : Except IllegalWord Instr :=
  .ok (make (targetOf w))

/-- Dispatch on `funct` under opcode 0 (R77, R114). Funct 0x0C is the table's row `syscall_rtype`, whose
execution raises `UnknownFunct` (R115). -/
def decodeSpecial (w : Word) : Except IllegalWord Instr :=
  if functOf w = 0x20 then withR .add w
  else if functOf w = 0x22 then withR .sub w
  else if functOf w = 0x24 then withR .and w
  else if functOf w = 0x25 then withR .or w
  else if functOf w = 0x0C then withR .syscallRtype w
  else .error (.unknownFunct (functOf w))

/-- The decoder, total on all words, its verdict taken in the order of R78. The rows `addi` and `addiu` of
the table are read as instructions whose execution raises `UnknownOpcode` (R116). -/
def decode (w : Word) : Except IllegalWord Instr :=
  if opcodeOf w = 0x00 then decodeSpecial w
  else if opcodeOf w = 0x0C then withI .syscall w
  else if opcodeOf w = 0x23 then withI .lw w
  else if opcodeOf w = 0x2B then withI .sw w
  else if opcodeOf w = 0x0F then withI .lui w
  else if opcodeOf w = 0x0D then withI .ori w
  else if opcodeOf w = 0x0E then withI .nori w
  else if opcodeOf w = 0x0A then withI .slti w
  else if opcodeOf w = 0x04 then withI .beq w
  else if opcodeOf w = 0x05 then withI .bne w
  else if opcodeOf w = 0x07 then withI .bgtz w
  else if opcodeOf w = 0x02 then withJ .j w
  else if opcodeOf w = 0x03 then withJ .jal w
  else if opcodeOf w = 0x08 then withI .addi w
  else if opcodeOf w = 0x09 then withI .addiu w
  else .error (.unknownOpcode (opcodeOf w))

/-- The decoder over bytes in memory order (R70: it always consumes 4 bytes, big-endian). It answers the
instruction and the bytes that follow it; `none` for fewer than four bytes. -/
def decodeBytes : List Byte → Option (Except IllegalWord Instr × List Byte)
  | b0 :: b1 :: b2 :: b3 :: rest => some (decode (wordOfBytes b0 b1 b2 b3), rest)
  | _ => none

/-- The instruction word of a table row's bits: bits at `nbits` and above are zero. -/
def tableWord (nbits w : Nat) : Word := BitVec.ofNat 32 (w % 2 ^ nbits)

/-- The instruction this decoder reads from the word `w` of opcode_table.json, laid out in memory order
(R42) and given to the decoder as bytes. -/
def decodeTableWord (nbits w : Nat) : Option Instr :=
  match decodeBytes (wordBytes (tableWord nbits w)) with
  | some (.ok i, _) => some i
  | _ => none

/-! ### Packers (R75) and the encoder -/

/-- The R layout of R71, filled with fields of their exact widths. -/
def packR (op : Code6) (rs rt rd : RegIdx) (shamt : Shamt) (funct : Code6) : Word :=
  op ++ rs ++ rt ++ rd ++ shamt ++ funct

/-- The I layout of R71. -/
def packI (op : Code6) (rs rt : RegIdx) (imm : Imm16) : Word := op ++ rs ++ rt ++ imm

/-- The J layout of R71. -/
def packJ (op : Code6) (target : Target26) : Word := op ++ target

/-- `create_r` (R75): each number is masked to its field. -/
def createR (f : RFields) : Word :=
  packR (BitVec.ofNat 6 f.op) (BitVec.ofNat 5 f.rs) (BitVec.ofNat 5 f.rt) (BitVec.ofNat 5 f.rd)
    (BitVec.ofNat 5 f.shamt) (BitVec.ofNat 6 f.funct)

/-- `create_i` (R75). -/
def createI (f : IFields) : Word :=
  packI (BitVec.ofNat 6 f.op) (BitVec.ofNat 5 f.rs) (BitVec.ofNat 5 f.rt) (BitVec.ofNat 16 f.imm)

/-- `create_j` (R75). -/
def createJ (f : JFields) : Word := packJ (BitVec.ofNat 6 f.op) (BitVec.ofNat 26 f.target)

/-- The word of an instruction, from the opcode and funct maps (R76, R77). -/
def encode : Instr → Word
  | .add rd rs rt shamt => packR 0x00 rs rt rd shamt 0x20
  | .sub rd rs rt shamt => packR 0x00 rs rt rd shamt 0x22
  | .and rd rs rt shamt => packR 0x00 rs rt rd shamt 0x24
  | .or rd rs rt shamt => packR 0x00 rs rt rd shamt 0x25
  | .syscallRtype rd rs rt shamt => packR 0x00 rs rt rd shamt 0x0C
  | .syscall rt rs imm => packI 0x0C rs rt imm
  | .lw rt rs imm => packI 0x23 rs rt imm
  | .sw rt rs imm => packI 0x2B rs rt imm
  | .lui rt rs imm => packI 0x0F rs rt imm
  | .ori rt rs imm => packI 0x0D rs rt imm
  | .nori rt rs imm => packI 0x0E rs rt imm
  | .slti rt rs imm => packI 0x0A rs rt imm
  | .beq rt rs imm => packI 0x04 rs rt imm
  | .bne rt rs imm => packI 0x05 rs rt imm
  | .bgtz rt rs imm => packI 0x07 rs rt imm
  | .j target => packJ 0x02 target
  | .jal target => packJ 0x03 target
  | .addi rt rs imm => packI 0x08 rs rt imm
  | .addiu rt rs imm => packI 0x09 rs rt imm

/-! ### The opcode table (R81) -/

/-- A row of opcode_table.json: its mnemonic, its `match` and its `mask`. -/
structure TableRow where
  mnemonic : String
  pattern : Word
  mask : Word
  deriving DecidableEq, Repr

/-- A word belongs to a row when it agrees with the pattern on the bits of the mask. -/
def TableRow.covers (row : TableRow) (w : Word) : Bool := w &&& row.mask == row.pattern

/-- The rows of format R: opcode and funct are fixed. -/
def specialRows : List TableRow :=
  [⟨"add", 0x00000020, 0xFC00003F⟩, ⟨"sub", 0x00000022, 0xFC00003F⟩, ⟨"and", 0x00000024, 0xFC00003F⟩,
    ⟨"or", 0x00000025, 0xFC00003F⟩, ⟨"syscall_rtype", 0x0000000C, 0xFC00003F⟩]

/-- The rows of formats I and J: the opcode is fixed. -/
def primaryRows : List TableRow :=
  [⟨"syscall", 0x30000000, 0xFC000000⟩, ⟨"lw", 0x8C000000, 0xFC000000⟩, ⟨"sw", 0xAC000000, 0xFC000000⟩,
    ⟨"lui", 0x3C000000, 0xFC000000⟩, ⟨"ori", 0x34000000, 0xFC000000⟩, ⟨"nori", 0x38000000, 0xFC000000⟩,
    ⟨"slti", 0x28000000, 0xFC000000⟩, ⟨"beq", 0x10000000, 0xFC000000⟩, ⟨"bne", 0x14000000, 0xFC000000⟩,
    ⟨"bgtz", 0x1C000000, 0xFC000000⟩, ⟨"j", 0x08000000, 0xFC000000⟩, ⟨"jal", 0x0C000000, 0xFC000000⟩,
    ⟨"addi", 0x20000000, 0xFC000000⟩, ⟨"addiu", 0x24000000, 0xFC000000⟩]

/-- The machine-readable opcode table (R81), row for row. -/
def opcodeTable : List TableRow := specialRows ++ primaryRows

/-- The table's name of an instruction's row. -/
def Instr.mnemonic : Instr → String
  | .add .. => "add" | .sub .. => "sub" | .and .. => "and" | .or .. => "or"
  | .syscallRtype .. => "syscall_rtype" | .syscall .. => "syscall"
  | .lw .. => "lw" | .sw .. => "sw" | .lui .. => "lui" | .ori .. => "ori" | .nori .. => "nori"
  | .slti .. => "slti" | .beq .. => "beq" | .bne .. => "bne" | .bgtz .. => "bgtz"
  | .j .. => "j" | .jal .. => "jal" | .addi .. => "addi" | .addiu .. => "addiu"

/-! ### Formats (R72) -/

/-- The three field layouts (R71). -/
inductive Format where
  | r | i | j
  deriving DecidableEq, Repr

/-- Format selection (R72): opcode 0 is R-type, 2 and 3 are J-type, all others are I-type. -/
def formatOf (opcode : Code6) : Format :=
  if opcode = 0x00 then .r else if opcode = 0x02 then .j else if opcode = 0x03 then .j else .i

/-- The format column of opcode_table.json. -/
def Instr.format : Instr → Format
  | .add .. | .sub .. | .and .. | .or .. | .syscallRtype .. => .r
  | .syscall .. | .lw .. | .sw .. | .lui .. | .ori .. | .nori .. | .slti .. | .beq .. | .bne .. | .bgtz ..
  | .addi .. | .addiu .. => .i
  | .j .. | .jal .. => .j

end Sys2Proof
end

