-- ==== Sys2Proof/Config.lean ====
section
/-! DEFINITION. The fixed parameters of the hardware (00_scope.md R7), the named parameters the spec leaves open (R8), and the free values: opaque constants with no body, so that no proof can use a value of theirs. -/
namespace Sys2Proof

/-- MAX_MEMORY, 2^32 bytes (R7). -/
def maxMemory : Nat := 0x100000000

/-- TEXT_OFFSET (R7, R51). -/
def textOffset : Nat := 0x00400000

/-- DATA_OFFSET (R7, R51). -/
def dataOffset : Nat := 0x10000000

/-- STACK_TOP (R7): a convention of software; nothing loads it into a register (R54, R236). -/
def stackTop : Nat := 0x7FFFFFFF

/-- The parameters of R8 that the source leaves open. `State` holds one of these records and no step
writes it, so a statement about every state is a statement about every choice (DESIGN CHOICE, log 2). -/
structure Params where
  /-- ENTRY_PC (D17). -/
  entryPc : Word
  /-- RESERVED_LOW_FAULTS (D9, R52). -/
  reservedLowFaults : Bool
  /-- TEXT_READ_ONLY (D10, R53). -/
  textReadOnly : Bool
  /-- PRINT_INT_SIGNED (D11, R182). -/
  printIntSigned : Bool
  /-- HEADER_LITTLE_ENDIAN (D19, R233). -/
  headerLittleEndian : Bool
  deriving DecidableEq, Repr

/-- The defaults of R8. For PRINT_INT_SIGNED the row says OPEN, "the simulator uses true": DESIGN CHOICE, log 3. -/
def Params.default : Params where
  entryPc := 0x00400000
  reservedLowFaults := false
  textReadOnly := false
  printIntSigned := true
  headerLittleEndian := true

/-- LAUNCH_IMAGE (R8, D18): blocks of bytes, each with the address of its first byte, in load order. -/
abbrev LaunchImage := List (Nat × List Byte)

/-- FREE VALUE (R184, D13; log 4): the word the host answers to the n-th `read_int` that no settled answer
covers. "The draw is any 32-bit value the host supplies." -/
opaque Config.hostDraw : Nat → Word

/-- FREE VALUE (91_not_in_source.md N3; log 11): the funct value the assembler's R-table holds for the k-th
mnemonic listed without a value (R94). -/
opaque Config.tableFunct : Nat → Code6

/-- FREE VALUE (N3; log 11): the opcode the assembler's I-table holds for the k-th mnemonic listed without a
value (R94). -/
opaque Config.tableOpcode : Nat → Code6

/-- FREE VALUE (N11; log 12): whether the assembler accepts the spelling `xori` for opcode 0x0E. -/
opaque Config.acceptsXori : Bool

/-- FREE VALUE (R91; log 14): the number of the first source line. -/
opaque Config.firstLineNumber : Nat

/-- FREE VALUE (R91; log 14): whether text after the colon of a label line is a syntax error. -/
opaque Config.rejectsTextAfterLabel : Bool

end Sys2Proof
end

