-- ==== Sys2Proof/Machine/State.lean ====
section
/-! DEFINITION. The architectural state (10_state.md R20), the faults of the core (60_exceptions.md R200), the ways a step can stop, and the state after reset (R31). -/
namespace Sys2Proof.Machine

/-- What a memory access is for (R44, R45, R200). -/
inductive Access where
  | fetch | load | store | stringRead
  deriving DecidableEq, Repr

/-- The fault causes of R200, with the info each records. A fault ends its step in a STATE whose `status`
holds it (R202): it is data of the state, not a stop of the model (log 1). -/
inductive CoreFault where
  /-- Cause 1: an access outside the address space. The size can be 2^32 for a string (R201). -/
  | memBounds (addr : Word) (size : Nat) (access : Access)
  /-- Cause 2: an access that RESERVED_LOW_FAULTS or TEXT_READ_ONLY refuses (R52, R53). -/
  | memRegion (addr : Word) (size : Nat) (access : Access)
  /-- Cause 3: no instruction has this opcode (R116). -/
  | unknownOpcode (opcode : Code6)
  /-- Cause 4: opcode 0 with no executed instruction at this funct (R115). -/
  | unknownFunct (funct : Code6)
  /-- Cause 5: `syscall` with a service code that names no service (R188). -/
  | unknownSyscall (code : Word)
  deriving DecidableEq, Repr

/-- The run status (R27). -/
inductive RunStatus where
  | running
  | halted (code : Word)
  | faulted (f : CoreFault)
  deriving DecidableEq, Repr

/-- Memory (R40): the bytes that are not zero, with their addresses, strictly rising. An address that is not
listed holds zero, the value memory has at construction (R231; log 7). -/
abbrev Memory := List Host.Cell

/-- The state record of R20, and three fields of the model's own: the parameters of R8 (log 2), and the
host's answers to `read_int` (log 4). -/
structure State where
  /-- The general registers (R21). Read and written only through `State.reg` and `State.setReg`. -/
  x : Vector Word 32
  /-- The program counter (R23). -/
  pc : Word
  /-- R24. -/
  hi : Word
  /-- R24. -/
  lo : Word
  /-- R40. -/
  mem : Memory
  /-- R27. -/
  status : RunStatus
  /-- The bytes written to stdout so far, oldest first (R28). -/
  out : List Byte
  /-- The model's own: the parameters of R8, which no step writes (log 2). -/
  params : Params
  /-- The model's own: answers to `read_int` that the host has settled, oldest first (log 4). -/
  draws : List Word
  /-- The model's own: how many free answers `read_int` has taken (log 4). -/
  drawCount : Nat
  deriving DecidableEq, Repr

/-- Why the model's step stops. Both are the end of a run (R27: "`Halted` and `Faulted` are terminal: no step
is defined from them"), raised by `step` alone; no instruction's meaning raises one. -/
inductive Fault where
  /-- Raised by `step` in a state whose status is `Halted`. Safe: the spec defines no step there. -/
  | halted (code : Word)
  /-- Raised by `step` in a state whose status is `Faulted`. Safe: the spec defines no step there. -/
  | faulted (f : CoreFault)
  deriving DecidableEq, Repr

/-- Why an instruction has no meaning. -/
inductive Refusal where
  /-- Raised by an arm of `exec` whose instruction has no meaning yet; no arm raises it. Safe. -/
  | notModelled (mnemonic : String)
  deriving DecidableEq, Repr

/-- What a step answers. -/
abbrev Outcome := Host.Outcome State Fault Refusal

/-- The machine right after a CPU reset on freshly constructed memory (R31, R230, R231): `pc` is 0, and the
launch alone sets it to ENTRY_PC (R234). The parameters have the defaults of R8 (log 3); the two fields
for the host's answers are empty and 0 (DESIGN CHOICE, log 4). -/
def State.reset : State where
  x := Vector.replicate 32 0
  pc := 0
  hi := 0
  lo := 0
  mem := []
  status := .running
  out := []
  params := Params.default
  draws := []
  drawCount := 0

end Sys2Proof.Machine
end

