-- ==== Sys2Proof/Machine/Memory.lean ====
section
/-! DEFINITION. The memory subsystem (20_memory.md): bytes, the canonical form, bounds and region checks, big-endian accesses of 1, 2 and 4 bytes, and string reads. -/
namespace Sys2Proof.Machine

/-! ### Bytes -/

/-- The byte at an address; an address that is not listed holds zero (R40, R231). -/
def Memory.read : Memory → Nat → Byte
  | [], _ => 0
  | (k, v) :: rest, a => if k = a then v else Memory.read rest a

/-- Memory with one byte replaced. The list stays strictly rising, and a zero byte is not listed. -/
def Memory.write : Memory → Nat → Byte → Memory
  | [], a, b => if b = 0 then [] else [(a, b)]
  | (k, v) :: rest, a, b =>
    if k < a then (k, v) :: Memory.write rest a b
    else if k = a then (if b = 0 then rest else (a, b) :: rest)
    else (if b = 0 then (k, v) :: rest else (a, b) :: (k, v) :: rest)

/-- The canonical form from address `low` upward. -/
def Memory.wfFrom : Nat → Memory → Bool
  | _, [] => true
  | low, (k, v) :: rest =>
    decide (low ≤ k) && decide (k < maxMemory) && v != 0 && Memory.wfFrom (k + 1) rest

/-- The canonical form: addresses strictly rising and inside the address space, no zero byte listed. -/
def Memory.wf (m : Memory) : Bool := Memory.wfFrom 0 m

/-- Consecutive bytes written from an address upward. -/
def Memory.writeBytes : Memory → Nat → List Byte → Memory
  | m, _, [] => m
  | m, a, b :: rest => Memory.writeBytes (m.write a b) (a + 1) rest

/-! ### Widths -/

/-- The access widths of the memory interface (R60). -/
inductive Width where
  | byte | halfword | word
  deriving DecidableEq, Repr

/-- The number of bytes of an access. -/
def Width.bytes : Width → Nat
  | .byte => 1
  | .halfword => 2
  | .word => 4

/-- The value of the bytes at `a`, most significant first, zero-extended to 32 bits (R44). -/
def Memory.readWide (m : Memory) (a : Nat) : Width → Word
  | .byte => (m.read a).zeroExtend 32
  | .halfword => (m.read a ++ m.read (a + 1)).zeroExtend 32
  | .word => wordOfBytes (m.read a) (m.read (a + 1)) (m.read (a + 2)) (m.read (a + 3))

/-- The bytes a write of `v` stores, lowest address first: the low `8n` bits of `v`, big-endian (R45). -/
def bytesToStore (v : Word) : Width → List Byte
  | .byte => [v.extractLsb' 0 8]
  | .halfword => [v.extractLsb' 8 8, v.extractLsb' 0 8]
  | .word => wordBytes v

/-! ### Checks -/

/-- R43: both `a` and `a + n - 1` lie below MAX_MEMORY; the sum is exact and does not wrap. -/
def inBounds (a : Word) (n : Nat) : Bool := decide (a.toNat + n ≤ maxMemory)

/-- R52: with RESERVED_LOW_FAULTS, an access that touches a byte below TEXT_OFFSET. Its lowest byte is at
`a`. -/
def touchesReserved (p : Params) (a : Word) : Bool := p.reservedLowFaults && decide (a.toNat < textOffset)

/-- R53: with TEXT_READ_ONLY, a store that touches a byte from TEXT_OFFSET to just below DATA_OFFSET. -/
def storesToText (p : Params) (access : Access) (a : Word) (n : Nat) : Bool :=
  p.textReadOnly && decide (access = .store) && decide (a.toNat < dataOffset) &&
    decide (textOffset < a.toNat + n)

/-- The fault of an access of `n` bytes at `a`, if a check fails: the bounds check, then the region checks
(R44, R45, R204). A region fault records the access's own size (log 6). -/
def accessFault (p : Params) (access : Access) (a : Word) (n : Nat) : Option CoreFault :=
  if inBounds a n then
    if touchesReserved p a || storesToText p access a n then some (.memRegion a n access) else none
  else some (.memBounds a n access)

/-! ### The primitives of 00_scope.md R12 -/

/-- MemRead (R44). -/
def memRead (p : Params) (m : Memory) (access : Access) (a : Word) (n : Width) : Except CoreFault Word :=
  match accessFault p access a n.bytes with
  | some f => .error f
  | none => .ok (m.readWide a.toNat n)

/-- MemWrite (R45): if a check fails, no byte is written. -/
def memWrite (p : Params) (m : Memory) (a : Word) (n : Width) (v : Word) : Except CoreFault Memory :=
  match accessFault p .store a n.bytes with
  | some f => .error f
  | none => .ok (m.writeBytes a.toNat (bytesToStore v n))

/-- The bytes from `a` up to the first zero byte, looking at `count` addresses at most; `none` if none of
them holds zero (the loop of R48). -/
def Memory.stringFrom (m : Memory) : Nat → Nat → Option (List Byte)
  | 0, _ => none
  | count + 1, a => if m.read a = 0 then some [] else (Memory.stringFrom m count (a + 1)).map (m.read a :: ·)

/-- MemReadString (R48): the cap is the top of memory. With RESERVED_LOW_FAULTS a string that starts below
TEXT_OFFSET faults at its first byte (R52, R183); both faults record the size of R201 (log 6). -/
def memReadString (p : Params) (m : Memory) (a : Word) : Except CoreFault (List Byte) :=
  if touchesReserved p a then .error (.memRegion a (maxMemory - a.toNat) .stringRead)
  else match m.stringFrom (maxMemory - a.toNat) a.toNat with
    | some bytes => .ok bytes
    | none => .error (.memBounds a (maxMemory - a.toNat) .stringRead)

/-! ### The operations of the memory's interface (R60) -/

/-- `read_byte(a)`. -/
def readByte (p : Params) (m : Memory) (a : Word) : Except CoreFault Byte :=
  (memRead p m .load a .byte).map (·.setWidth 8)

/-- `read_halfword(a)`. -/
def readHalfword (p : Params) (m : Memory) (a : Word) : Except CoreFault (BitVec 16) :=
  (memRead p m .load a .halfword).map (·.setWidth 16)

/-- `read_word(a)`. -/
def readWord (p : Params) (m : Memory) (a : Word) : Except CoreFault Word := memRead p m .load a .word

/-- `write_byte(v, a)`: the value comes first (R60). -/
def writeByte (p : Params) (m : Memory) (v : Byte) (a : Word) : Except CoreFault Memory :=
  memWrite p m a .byte (v.zeroExtend 32)

/-- `write_halfword(v, a)`. -/
def writeHalfword (p : Params) (m : Memory) (v : BitVec 16) (a : Word) : Except CoreFault Memory :=
  memWrite p m a .halfword (v.zeroExtend 32)

/-- `write_word(v, a)`. -/
def writeWord (p : Params) (m : Memory) (v a : Word) : Except CoreFault Memory := memWrite p m a .word v

/-- `read_string(a)`. -/
def readString (p : Params) (m : Memory) (a : Word) : Except CoreFault (List Byte) := memReadString p m a

end Sys2Proof.Machine
end

