-- ==== Sys2Proof/Machine/Ops.lean ====
section
/-! DEFINITION. The named operations of the core: registers, pc, loads and stores, output, the host's answers, halting, and taking a fault. -/
namespace Sys2Proof.Machine

/-! ### Registers (00_scope.md R11, 10_state.md R21) -/

/-- Read a general register: register 0 reads as zero. -/
def State.reg (s : State) (r : RegIdx) : Word := if r = 0 then 0 else s.x[r.toNat]'r.isLt

/-- Write a general register: a write to register 0 is discarded. -/
def State.setReg (s : State) (r : RegIdx) (v : Word) : State :=
  if r = 0 then s else { s with x := s.x.set r.toNat v r.isLt }

/-- `pc <- target` (R11). -/
def State.setPc (s : State) (target : Word) : State := { s with pc := target }

/-- The advance of the fetch (40_cycle.md R111): `pc + 4`, modulo 2^32. -/
def State.advancePc (s : State) : State := s.setPc (s.pc + 4)

/-- Memory replaced. -/
def State.setMem (s : State) (m : Memory) : State := { s with mem := m }

/-- The run status replaced (R27). -/
def State.setStatus (s : State) (st : RunStatus) : State := { s with status := st }

/-! ### Faults and the end of a run -/

/-- The numeric code of a fault (60_exceptions.md R200). -/
def CoreFault.code : CoreFault → Nat
  | .memBounds .. => 1
  | .memRegion .. => 2
  | .unknownOpcode _ => 3
  | .unknownFunct _ => 4
  | .unknownSyscall _ => 5

/-- TAKING A FAULT, the one operation for every cause (00_scope.md R13, 60_exceptions.md R202): the step ends
with `status <- Faulted(f)` and commits nothing more. No register saves the pc or a status, there is no
handler and no mode (R207), and no return from a fault exists (R208). The `pc` is already what R202 asks:
`pc_i` in the fetch, `pc_i + 4` after it. -/
def raise (f : CoreFault) (s : State) : Outcome := .next (s.setStatus (.faulted f))

/-- `Halt(code)` (00_scope.md R13, 60_exceptions.md R206). -/
def halt (code : Word) (s : State) : Outcome := .next (s.setStatus (.halted code))

/-! ### Memory -/

/-- The instruction word at `pc` (40_cycle.md R111). -/
def fetch (s : State) : Except CoreFault Word := memRead s.params s.mem .fetch s.pc .word

/-- A 4-byte load (R49). -/
def loadWord (s : State) (a : Word) : Except CoreFault Word := memRead s.params s.mem .load a .word

/-- A 4-byte store (R49). -/
def storeWord (s : State) (a v : Word) : Except CoreFault State :=
  (memWrite s.params s.mem a .word v).map s.setMem

/-- The fault that an illegal word raises (30_encoding.md R80). -/
def illegalFault : IllegalWord → CoreFault
  | .unknownFunct funct => .unknownFunct funct
  | .unknownOpcode opcode => .unknownOpcode opcode

/-! ### The host (00_scope.md R13, 46_syscall.md R189) -/

/-- `HostWrite(bytes)`: bytes appended to the output stream (R28). -/
def hostWrite (bytes : List Byte) (s : State) : State := { s with out := s.out ++ bytes }

/-- The word that the next `HostReadInt()` returns: the oldest answer the host has settled, else a free value
(R184; log 4). -/
def State.nextDraw (s : State) : Word :=
  match s.draws with
  | d :: _ => d
  | [] => Config.hostDraw s.drawCount

/-- The state once that word is taken. -/
def State.takeDraw (s : State) : State :=
  match s.draws with
  | _ :: rest => { s with draws := rest }
  | [] => { s with drawCount := s.drawCount + 1 }

end Sys2Proof.Machine
end

