-- ==== Sys2Proof/Machine/Operands.lean ====
section
/-! DEFINITION. The operand forms (30_encoding.md R73): immediates, the effective address of a load, the address and value of a store, and the targets of branches and jumps. -/
namespace Sys2Proof.Machine

/-- `sext_16(imm16)` (00_scope.md R10). -/
def sext16 (imm : Imm16) : Word := imm.signExtend 32

/-- `zext_16(imm16)`. -/
def zext16 (imm : Imm16) : Word := imm.zeroExtend 32

/-- `zext_16(imm16) << 16` (R150). -/
def upperImm (imm : Imm16) : Word := zext16 imm <<< 16

/-- The target of a jump: `zext_26(target26)`, not shifted, with no bits of `pc` (R170). -/
def jumpTarget (target : Target26) : Word := target.zeroExtend 32

/-- `btarget` (44_branch.md): the `pc` after the fetch plus `sext_16(imm16) << 2`, modulo 2^32. -/
def branchTarget (imm : Imm16) (s : State) : Word := s.pc + (sext16 imm <<< 2)

/-- The effective address of `lw` (R140), modulo 2^32 (D5). -/
def loadAddress (rs : RegIdx) (imm : Imm16) (s : State) : Word := s.reg rs + sext16 imm

/-- The address `sw` stores to: `x[rt]` (R141, C4). -/
def storeAddress (rt : RegIdx) (s : State) : Word := s.reg rt

/-- The value `sw` stores: `x[rs] + sext_16(imm16)`, modulo 2^32 (R141, C4). -/
def storeValue (rs : RegIdx) (imm : Imm16) (s : State) : Word := s.reg rs + sext16 imm

/-- The link register of `jal` (10_state.md R22, R171). -/
def linkReg : RegIdx := 31

/-- The register of a syscall's service code and of the result of service 5 (R22, R180). -/
def serviceReg : RegIdx := 2

/-- The register of a syscall's argument (R22). -/
def argumentReg : RegIdx := 4

end Sys2Proof.Machine
end

