-- ==== Sys2Proof/Machine/Flags.lean ====
section
/-! DEFINITION. The core has no flags and no condition codes (10_state.md R25): comparisons write a general register or decide a branch. These are the comparisons. -/
namespace Sys2Proof.Machine

/-- `signed(a) < signed(b)` (R154). -/
def signedLess (a b : Word) : Bool := decide (a.toInt < b.toInt)

/-- `signed(a) > 0` (R162). -/
def signedPositive (a : Word) : Bool := decide (0 < a.toInt)

/-- `(c ? 1 : 0)` as a 32-bit value (00_scope.md R10). -/
def boolWord (c : Bool) : Word := if c then 1 else 0

end Sys2Proof.Machine
end

