-- ==== Sys2Proof/Machine/Branch.lean ====
section
/-! DEFINITION. The conditional branches (44_branch.md R160-R163). There is no delay slot (40_cycle.md R119). -/
namespace Sys2Proof.Machine

/-- `if c then pc <- btarget`; otherwise `pc` stays as the fetch left it. -/
def branchIf (c : Bool) (imm : Imm16) (s : State) : Outcome :=
  .next (if c then s.setPc (branchTarget imm s) else s)

/-- R160. -/
def execBeq (rt rs : RegIdx) (imm : Imm16) (s : State) : Outcome :=
  branchIf (decide (s.reg rs = s.reg rt)) imm s

/-- R161. -/
def execBne (rt rs : RegIdx) (imm : Imm16) (s : State) : Outcome :=
  branchIf (decide (s.reg rs ≠ s.reg rt)) imm s

/-- R162; `rt` is ignored. -/
def execBgtz (rs : RegIdx) (imm : Imm16) (s : State) : Outcome :=
  branchIf (signedPositive (s.reg rs)) imm s

end Sys2Proof.Machine
end

