-- ==== Sys2Proof/Machine/IType.lean ====
section
/-! DEFINITION. The I-type ALU instructions (43_itype_alu.md R150-R154), and `addi` and `addiu`, which fault (40_cycle.md R116). There is no `andi`: opcode 0x0C is `syscall` (R153, 30_encoding.md R79). -/
namespace Sys2Proof.Machine

/-- R150; `rs` is ignored. -/
def execLui (rt : RegIdx) (imm : Imm16) (s : State) : Outcome := .next (s.setReg rt (upperImm imm))

/-- R151. -/
def execOri (rt rs : RegIdx) (imm : Imm16) (s : State) : Outcome :=
  .next (s.setReg rt (s.reg rs ||| zext16 imm))

/-- R152: `~(x[rs] | zext_16(imm16))` (C3). -/
def execNori (rt rs : RegIdx) (imm : Imm16) (s : State) : Outcome :=
  .next (s.setReg rt (~~~(s.reg rs ||| zext16 imm)))

/-- R154. -/
def execSlti (rt rs : RegIdx) (imm : Imm16) (s : State) : Outcome :=
  .next (s.setReg rt (boolWord (signedLess (s.reg rs) (sext16 imm))))

/-- R116, D2: opcode 0x08 has no meaning in the core and raises `UnknownOpcode(0x08)`. -/
def execAddi (s : State) : Outcome := raise (.unknownOpcode 0x08) s

/-- R116, D2: opcode 0x09 raises `UnknownOpcode(0x09)`. -/
def execAddiu (s : State) : Outcome := raise (.unknownOpcode 0x09) s

end Sys2Proof.Machine
end

