-- ==== Sys2Proof/Machine/Jump.lean ====
section
/-! DEFINITION. The jumps (45_jump.md R170, R171). -/
namespace Sys2Proof.Machine

/-- R170: the raw 26-bit target. -/
def execJ (target : Target26) (s : State) : Outcome := .next (s.setPc (jumpTarget target))

/-- R171: `x[31] <- pc`, which the fetch has already set to `pc_i + 4`; then the raw target. -/
def execJal (target : Target26) (s : State) : Outcome :=
  .next ((s.setReg linkReg s.pc).setPc (jumpTarget target))

end Sys2Proof.Machine
end

