-- ==== Sys2Proof/Machine/LoadStore.lean ====
section
/-! DEFINITION. The load and the store (42_load_store.md R140-R142). -/
namespace Sys2Proof.Machine

/-- R140. The read happens, and can fault, when `rt` is register 0 too (40_cycle.md R118). -/
def execLw (rt rs : RegIdx) (imm : Imm16) (s : State) : Outcome :=
  match loadWord s (loadAddress rs imm s) with
  | .ok v => .next (s.setReg rt v)
  | .error f => raise f s

/-- R141: the source's swapped operands. The canonical MIPS store is not implemented (R142). -/
def execSw (rt rs : RegIdx) (imm : Imm16) (s : State) : Outcome :=
  match storeWord s (storeAddress rt s) (storeValue rs imm s) with
  | .ok t => .next t
  | .error f => raise f s

end Sys2Proof.Machine
end

