-- ==== Sys2Proof/Machine/RType.lean ====
section
/-! DEFINITION. The R-type instructions (41_rtype_alu.md R130-R133) and the R-type spelling of `syscall`, which faults (40_cycle.md R115). Each meaning runs after the fetch has advanced `pc`. -/
namespace Sys2Proof.Machine

/-- `x[rd] <- f(x[rs], x[rt])`. -/
def aluR (f : Word → Word → Word) (rd rs rt : RegIdx) (s : State) : Outcome :=
  .next (s.setReg rd (f (s.reg rs) (s.reg rt)))

/-- R130: the sum modulo 2^32, with no overflow trap (D4). -/
def execAdd (rd rs rt : RegIdx) (s : State) : Outcome := aluR (fun a b => a + b) rd rs rt s

/-- R131: the difference modulo 2^32. -/
def execSub (rd rs rt : RegIdx) (s : State) : Outcome := aluR (fun a b => a - b) rd rs rt s

/-- R132. -/
def execAnd (rd rs rt : RegIdx) (s : State) : Outcome := aluR (fun a b => a &&& b) rd rs rt s

/-- R133. -/
def execOr (rd rs rt : RegIdx) (s : State) : Outcome := aluR (fun a b => a ||| b) rd rs rt s

/-- R115, C1: the R-type word with funct 0x0C is not a syscall and raises `UnknownFunct(0x0C)`. -/
def execSyscallRtype (s : State) : Outcome := raise (.unknownFunct 0x0C) s

end Sys2Proof.Machine
end

