-- ==== Sys2Proof/Machine/Syscall.lean ====
section
/-! DEFINITION. The `syscall` instruction and its services (46_syscall.md R180-R189). -/
namespace Sys2Proof.Machine

/-- The ASCII code of a decimal digit (R182). -/
def digitByte (d : Nat) : Byte := BitVec.ofNat 8 (0x30 + d)

/-- The decimal digits of a number, most significant first, with no leading zeros; `places` bounds their
count (R182). -/
def decimalDigits : Nat → Nat → List Byte
  | 0, _ => []
  | places + 1, n =>
    if n < 10 then [digitByte n] else decimalDigits places (n / 10) ++ [digitByte (n % 10)]

/-- The integer that `print_int` prints (R182): signed or unsigned by PRINT_INT_SIGNED (D11). -/
def printedInt (p : Params) (v : Word) : Int := if p.printIntSigned then v.toInt else (v.toNat : Int)

/-- `decimal(v)` (R182): a `-` for a negative number, then the digits. A 32-bit number has at most ten. -/
def decimalText (p : Params) (v : Word) : List Byte :=
  (if printedInt p v < 0 then [0x2D] else []) ++ decimalDigits 10 (printedInt p v).natAbs

/-- Service 1, `print_int` (R181). -/
def servicePrintInt (s : State) : Outcome :=
  .next (hostWrite (decimalText s.params (s.reg argumentReg)) s)

/-- Service 4, `print_string` (R183): the zero byte is not written, and a faulting read writes nothing. -/
def servicePrintString (s : State) : Outcome :=
  match memReadString s.params s.mem (s.reg argumentReg) with
  | .ok bytes => .next (hostWrite bytes s)
  | .error f => raise f s

/-- Service 5, `read_int` (R184). -/
def serviceReadInt (s : State) : Outcome := .next (s.takeDraw.setReg serviceReg s.nextDraw)

/-- Service 10, `exit` (R185): all 32 bits of the code (D15). -/
def serviceExit (s : State) : Outcome := halt (s.reg argumentReg) s

/-- Service 11, `print_char` (R186): the low byte. -/
def servicePrintChar (s : State) : Outcome :=
  .next (hostWrite [(s.reg argumentReg).extractLsb' 0 8] s)

/-- Services 8, 9 and 12, `read_string`, `sbrk`, `read_char`: no effect (R187). -/
def serviceNoEffect (s : State) : Outcome := .next s

/-- R180: the service code is the full 32-bit `x[2]` (D16); any other code raises `UnknownSyscall` (R188). -/
def execSyscall (s : State) : Outcome :=
  if s.reg serviceReg = 1 then servicePrintInt s
  else if s.reg serviceReg = 4 then servicePrintString s
  else if s.reg serviceReg = 5 then serviceReadInt s
  else if s.reg serviceReg = 10 then serviceExit s
  else if s.reg serviceReg = 11 then servicePrintChar s
  else if s.reg serviceReg = 8 then serviceNoEffect s
  else if s.reg serviceReg = 9 then serviceNoEffect s
  else if s.reg serviceReg = 12 then serviceNoEffect s
  else raise (.unknownSyscall (s.reg serviceReg)) s

end Sys2Proof.Machine
end

