-- ==== Sys2Proof/Machine/Dispatch.lean ====
section
/-! DEFINITION. The dispatch of an instruction to its meaning (40_cycle.md R113). -/
namespace Sys2Proof.Machine

def exec (i : Instr) (s : State) : Host.Outcome State Fault Refusal :=
  match i with
  | .add rd rs rt _ => Sys2Proof.Machine.execAdd rd rs rt s
  | .sub rd rs rt _ => Sys2Proof.Machine.execSub rd rs rt s
  | .and rd rs rt _ => Sys2Proof.Machine.execAnd rd rs rt s
  | .or rd rs rt _ => Sys2Proof.Machine.execOr rd rs rt s
  | .syscallRtype _ _ _ _ => Sys2Proof.Machine.execSyscallRtype s
  | .syscall _ _ _ => Sys2Proof.Machine.execSyscall s
  | .lw rt rs imm => Sys2Proof.Machine.execLw rt rs imm s
  | .sw rt rs imm => Sys2Proof.Machine.execSw rt rs imm s
  | .lui rt _ imm => Sys2Proof.Machine.execLui rt imm s
  | .ori rt rs imm => Sys2Proof.Machine.execOri rt rs imm s
  | .nori rt rs imm => Sys2Proof.Machine.execNori rt rs imm s
  | .slti rt rs imm => Sys2Proof.Machine.execSlti rt rs imm s
  | .beq rt rs imm => Sys2Proof.Machine.execBeq rt rs imm s
  | .bne rt rs imm => Sys2Proof.Machine.execBne rt rs imm s
  | .bgtz _ rs imm => Sys2Proof.Machine.execBgtz rs imm s
  | .j target => Sys2Proof.Machine.execJ target s
  | .jal target => Sys2Proof.Machine.execJal target s
  | .addi _ _ _ => Sys2Proof.Machine.execAddi s
  | .addiu _ _ _ => Sys2Proof.Machine.execAddiu s

end Sys2Proof.Machine
end

