-- ==== Sys2Proof/Machine/Step.lean ====
section
/-! DEFINITION. One step: fetch, decode, execute (40_cycle.md R110-R113), and where a program's next word is placed. -/
namespace Sys2Proof.Machine

/-- R110: a step is defined only from `Running`. A fetch fault leaves `pc` (R111); after a successful fetch
`pc` is 4 further, and an illegal word raises its fault there (R115, R116). -/
def step (s : State) : Host.Outcome State Fault Refusal :=
  match s.status with
  | .halted code => .fault (.halted code)
  | .faulted f => .fault (.faulted f)
  | .running =>
    match fetch s with
    | .error f => raise f s
    | .ok w =>
      match decode w with
      | .error e => raise (illegalFault e) s.advancePc
      | .ok i => exec i s.advancePc

/-- The instruction word `w` of a table row stored big-endian where the next step fetches (R42, R111).
Nothing else changes. Where no word fits at `pc` (R43) the state stays as it is. -/
def State.withFetchWord (s : State) (nbits w : Nat) : State :=
  if inBounds s.pc 4 then s.setMem (s.mem.writeBytes s.pc.toNat (wordBytes (tableWord nbits w))) else s

end Sys2Proof.Machine
end

