-- ==== Sys2Proof/WellFormed.lean ====
section
/-! DEFINITION. The checks on terms that can be ill-formed. An `Instr` needs none: its fields are bit vectors of exactly the widths of R71, and every value of each is legal (R74). What can be ill-formed are the number tuples given to the packers (R75, 93_implementation_defined.md I3) and a launch image (R233). -/
namespace Sys2Proof

/-- Each argument of `create_r` fits its field (R75). -/
def RFields.fits (f : RFields) : Bool :=
  decide (f.op < 64) && decide (f.rs < 32) && decide (f.rt < 32) && decide (f.rd < 32) &&
    decide (f.shamt < 32) && decide (f.funct < 64)

/-- Each argument of `create_i` fits its field (R75). -/
def IFields.fits (f : IFields) : Bool :=
  decide (f.op < 64) && decide (f.rs < 32) && decide (f.rt < 32) && decide (f.imm < 65536)

/-- Each argument of `create_j` fits its field (R75). -/
def JFields.fits (f : JFields) : Bool :=
  decide (f.op < 64) && decide (f.target < 2 ^ 26)

/-- Every block of a launch image lies inside the address space (R40, R43). -/
def LaunchImage.wf (image : LaunchImage) : Bool :=
  image.all fun block => decide (block.1 + block.2.length ≤ maxMemory)

end Sys2Proof
end

