-- ==== Sys2Proof/Machine/Loader.lean ====
section
/-! DEFINITION. CPU reset and the launch (70_reset_and_hazards.md R230-R235): the object file, the launch image, and the state a run starts from. -/
namespace Sys2Proof.Machine

/-! ### Reset and launch -/

/-- CPU reset (R230): the registers, `pc`, `hi`, `lo`, the status and the output. Memory is not touched. -/
def State.cpuReset (s : State) : State :=
  { s with x := Vector.replicate 32 0, pc := 0, hi := 0, lo := 0, status := .running, out := [] }

/-- Fresh memory with the blocks of an image written in order (R231, R232). The loader's writes are never
checked against TEXT_READ_ONLY (R53). -/
def imageMemory (image : LaunchImage) : Memory :=
  image.foldl (fun m block => m.writeBytes block.1 block.2) []

/-- The launch (R232): memory constructed, the image loaded, the CPU reset, then `pc <- ENTRY_PC` (R234). -/
def launch (p : Params) (image : LaunchImage) : State :=
  (State.cpuReset (State.setMem { State.reset with params := p } (imageMemory image))).setPc p.entryPc

/-! ### The object file (R233) -/

/-- Why a load fails; no run starts then. -/
inductive LoadError where
  /-- The magic is not `MIPS` or the version is not 1 (R233). -/
  | format
  /-- The file ends before what its headers announce (DESIGN CHOICE, log 10). -/
  | truncated
  /-- A section of neither segment 0 nor segment 1 (DESIGN CHOICE, log 10). -/
  | unknownSegment (code : Byte)
  /-- A section whose payload runs on past the top of memory (DESIGN CHOICE, log 10). -/
  | outsideMemory
  deriving DecidableEq, Repr

/-- A section header's three values (R233). -/
structure SectionHeader where
  segment : Byte
  offset : Word
  size : Word
  deriving DecidableEq, Repr

/-- The ASCII bytes `MIPS` (R233). -/
def magic : List Byte := [0x4D, 0x49, 0x50, 0x53]

/-- A u32 header field, read by HEADER_LITTLE_ENDIAN (D19). -/
def headerWord (littleEndian : Bool) (b0 b1 b2 b3 : Byte) : Word :=
  if littleEndian then wordOfBytes b3 b2 b1 b0 else wordOfBytes b0 b1 b2 b3

/-- The bytes of a u32 header field. -/
def headerWordBytes (littleEndian : Bool) (w : Word) : List Byte :=
  if littleEndian then (wordBytes w).reverse else wordBytes w

/-- The 8-byte header: the section count, and what follows it. The endianness byte and the pad byte are
ignored (R41, R233). -/
def readHeader : List Byte → Except LoadError (Nat × List Byte)
  | m0 :: m1 :: m2 :: m3 :: _endianness :: version :: count :: _pad :: rest =>
    if [m0, m1, m2, m3] = magic ∧ version = 1 then .ok (count.toNat, rest) else .error .format
  | _ => .error .truncated

/-- `count` section headers of 12 bytes each, and what follows them. -/
def readSectionHeaders (littleEndian : Bool) : Nat → List Byte → Except LoadError (List SectionHeader × List Byte)
  | 0, bytes => .ok ([], bytes)
  | count + 1, segment :: _ :: _ :: _ :: o0 :: o1 :: o2 :: o3 :: s0 :: s1 :: s2 :: s3 :: rest =>
    (readSectionHeaders littleEndian count rest).map fun r =>
      (⟨segment, headerWord littleEndian o0 o1 o2 o3, headerWord littleEndian s0 s1 s2 s3⟩ :: r.1, r.2)
  | _ + 1, _ => .error .truncated

/-- The base a segment code is loaded at: text at TEXT_OFFSET, data at DATA_OFFSET (R233, D18). -/
def segmentBase (segment : Byte) : Option Word :=
  if segment = 0 then some (BitVec.ofNat 32 textOffset)
  else if segment = 1 then some (BitVec.ofNat 32 dataOffset) else none

/-- The address of a section's first byte: its base plus its offset, a sum of 32-bit values and so modulo 2^32
(R233, 00_scope.md R10). -/
def sectionStart (base offset : Word) : Nat := (base + offset).toNat

/-- The payloads, in order, each at its base plus its offset. The payload bytes are copied unchanged. -/
def placeSections : List SectionHeader → List Byte → Except LoadError LaunchImage
  | [], _ => .ok []
  | h :: rest, bytes =>
    match segmentBase h.segment with
    | none => .error (.unknownSegment h.segment)
    | some base =>
      if bytes.length < h.size.toNat then .error .truncated
      else if maxMemory < sectionStart base h.offset + h.size.toNat then .error .outsideMemory
      else (placeSections rest (bytes.drop h.size.toNat)).map
        ((sectionStart base h.offset, bytes.take h.size.toNat) :: ·)

/-- The launch image of an object file (R233). -/
def readObject (littleEndian : Bool) (file : List Byte) : Except LoadError LaunchImage :=
  match readHeader file with
  | .error e => .error e
  | .ok (count, afterHeader) =>
    match readSectionHeaders littleEndian count afterHeader with
    | .error e => .error e
    | .ok (headers, payloads) => placeSections headers payloads

/-- `prepare_and_hold` (R232): the launch state of an object file, or the load error. -/
def launchObject (p : Params) (file : List Byte) : Except LoadError State :=
  (readObject p.headerLittleEndian file).map (launch p)

/-- The object writer (R235): one text section at offset 0 that holds the raw bytes. A
length of 2^32 or more, which the u32 `size` field cannot hold, is written modulo 2^32 (DESIGN CHOICE, log 19). -/
def saveObject (littleEndian : Bool) (binary : List Byte) : List Byte :=
  magic ++ [0, 1, 1, 0] ++ [0, 0, 0, 0] ++ headerWordBytes littleEndian 0 ++
    headerWordBytes littleEndian (BitVec.ofNat 32 binary.length) ++ binary

end Sys2Proof.Machine
end

