-- ==== Sys2Proof/Machine/Assembler.lean ====
section
/-! DEFINITION. The toolchain's assembler (30_encoding.md R90-R100): source text to instruction words, or a syntax error. Nothing in the core depends on it. A text is a list of characters. -/
namespace Sys2Proof.Machine.Assembler

/-- Source text, a line or a token. -/
abbrev Text := List Char

/-! ### Characters and lines (R90, R92) -/

/-- White space: blank, tab and the line-end controls (PRESUMED, log 13). -/
def isBlank (c : Char) : Bool := c.toNat == 32 || (decide (9 ≤ c.toNat) && decide (c.toNat ≤ 13))

/-- A text without leading and trailing white space (R90). -/
def trim (t : Text) : Text := ((t.dropWhile isBlank).reverse.dropWhile isBlank).reverse

/-- The pieces of a text between the characters that `isSep` marks. -/
def splitAll (isSep : Char → Bool) : Text → List Text
  | [] => [[]]
  | c :: rest =>
    if isSep c then [] :: splitAll isSep rest
    else match splitAll isSep rest with
      | piece :: more => (c :: piece) :: more
      | [] => [[c]]

/-- The source lines; a line ends at a line feed (log 13). -/
def sourceLines (t : Text) : List Text := splitAll (· == '\n') t

/-- What a line is (R90, R91). -/
inductive Line where
  /-- Empty, blank, or holding `#` anywhere: skipped in full. -/
  | skipped
  /-- Holding `:`: the name before the first one, and the text after it. -/
  | label (name after : Text)
  /-- Anything else: an instruction line, trimmed. -/
  | instruction (t : Text)
  deriving DecidableEq, Repr

/-- Line classification (R90, R91). -/
def classify (raw : Text) : Line :=
  let t := trim raw
  if t.isEmpty || t.contains '#' then .skipped
  else if t.contains ':' then
    .label (t.takeWhile (· != ':')) ((t.dropWhile (· != ':')).drop 1)
  else .instruction t

/-- A statement's mnemonic and argument tokens (R92). -/
structure Statement where
  mnemonic : Text
  args : List Text
  deriving DecidableEq, Repr

/-- Split once on the first white space, then the arguments on `,`, each trimmed (R92). A line without white
space has no argument (DESIGN CHOICE, log 15). -/
def tokenize (t : Text) : Statement :=
  let rest := t.dropWhile (fun c => !isBlank c)
  { mnemonic := t.takeWhile (fun c => !isBlank c)
    args := if rest.isEmpty then [] else (splitAll (· == ',') rest).map trim }

/-! ### Operand tokens (R93) -/

/-- The value of a decimal digit. -/
def digitValue (c : Char) : Option Nat :=
  if '0' ≤ c ∧ c ≤ '9' then some (c.toNat - '0'.toNat) else none

/-- The value of decimal digits read after `acc`. -/
def digitsFrom : Nat → Text → Option Nat
  | acc, [] => some acc
  | acc, c :: rest =>
    match digitValue c with
    | some d => digitsFrom (10 * acc + d) rest
    | none => none

/-- One or more decimal digits. -/
def readDecimal (t : Text) : Option Nat := if t.isEmpty then none else digitsFrom 0 t

/-- A register token: `$t` and one digit, exactly three characters; digit D names register D (R93, R95). -/
def readRegister : Text → Option Nat
  | ['$', 't', d] => digitValue d
  | _ => none

/-- An immediate token: an optional `-`, then decimal digits (R93). -/
def readImmediate : Text → Option Int
  | '-' :: digits => (readDecimal digits).map fun n => -(n : Int)
  | t => (readDecimal t).map fun n => (n : Int)

/-! ### Mnemonic tables (R94) -/

/-- A funct the core does not execute: a free funct stays itself unless it is an executed one (R6). -/
def unexecutedFunct (f : Code6) : Code6 :=
  if f = 0x20 ∨ f = 0x22 ∨ f = 0x24 ∨ f = 0x25 then 0x3F else f

/-- An opcode the core does not execute (R6, R76). -/
def unexecutedOpcode (o : Code6) : Code6 :=
  if o = 0x00 ∨ o = 0x02 ∨ o = 0x03 ∨ o = 0x04 ∨ o = 0x05 ∨ o = 0x07 ∨ o = 0x0A ∨ o = 0x0C ∨ o = 0x0D ∨
    o = 0x0E ∨ o = 0x0F ∨ o = 0x23 ∨ o = 0x2B then 0x3F else o

/-- The R-table's entries with values. -/
def rTable : List (Text × Code6) :=
  [("add".toList, 0x20), ("sub".toList, 0x22), ("and".toList, 0x24), ("or".toList, 0x25),
    ("syscall".toList, 0x0C)]

/-- The R-table's mnemonics without a value in the spec (R6, R94, N3). -/
def rTableUnvalued : List Text :=
  ["addu".toList, "break".toList, "div".toList, "divu".toList, "jalr".toList, "jr".toList, "mfhi".toList,
    "mflo".toList, "mthi".toList, "mtlo".toList, "mult".toList, "multu".toList] ++
  ["nor".toList, "sll".toList, "sllv".toList, "slt".toList, "sltu".toList, "sra".toList, "srav".toList,
    "srl".toList, "srlv".toList, "subu".toList, "xor".toList]

/-- The I-table's entries with values. The entry of opcode 0x0E is `nori` (C3). -/
def iTable : List (Text × Code6) :=
  [("addi".toList, 0x08), ("addiu".toList, 0x09), ("andi".toList, 0x0C), ("beq".toList, 0x04),
    ("bne".toList, 0x05), ("bgtz".toList, 0x07), ("lui".toList, 0x0F), ("ori".toList, 0x0D)] ++
  [("nori".toList, 0x0E), ("slti".toList, 0x0A), ("lw".toList, 0x23), ("sw".toList, 0x2B)]

/-- The I-table's mnemonics without a value in the spec (R6, R94, N3). -/
def iTableUnvalued : List Text :=
  ["lb".toList, "lbu".toList, "lh".toList, "lhu".toList, "sb".toList, "sh".toList]

/-- The J-table. -/
def jTable : List (Text × Code6) := [("j".toList, 0x02), ("jal".toList, 0x03)]

/-- The value a table gives a mnemonic. -/
def tableValue : List (Text × Code6) → Text → Option Code6
  | [], _ => none
  | (name, value) :: rest, t => if name = t then some value else tableValue rest t

/-- The place of a mnemonic in a list. -/
def placeIn : List Text → Text → Option Nat
  | [], _ => none
  | name :: rest, t => if name = t then some 0 else (placeIn rest t).map (· + 1)

/-- The shape of a statement, by the table that holds its mnemonic. -/
inductive Shape where
  | r (funct : Code6)
  | i (opcode : Code6)
  | j (opcode : Code6)
  deriving DecidableEq, Repr

/-- The shape of a mnemonic; `none` is an unrecognised one (R94). The values the spec does not give are free
values that the core does not execute (N3, R6; log 11), and `xori` is accepted or not by a free value
(N11; log 12). -/
def shapeOf (t : Text) : Option Shape :=
  match tableValue rTable t with
  | some f => some (.r f)
  | none =>
    match placeIn rTableUnvalued t with
    | some k => some (.r (unexecutedFunct (Config.tableFunct k)))
    | none =>
      match tableValue iTable t with
      | some o => some (.i o)
      | none =>
        match placeIn iTableUnvalued t with
        | some k => some (.i (unexecutedOpcode (Config.tableOpcode k)))
        | none =>
          match tableValue jTable t with
          | some o => some (.j o)
          | none => if t = "xori".toList ∧ Config.acceptsXori = true then some (.i 0x0E) else none

/-! ### Statements (R96, R97, R98) -/

/-- What is wrong with a line (R99). -/
inductive ErrorKind where
  | unknownMnemonic
  | wrongArgumentCount
  | invalidRegister
  | invalidImmediate
  | immediateOutOfRange
  | invalidAddress
  | textAfterLabel
  deriving DecidableEq, Repr

/-- `mnemonic rd, rs, rt` (R96). -/
def assembleR (funct : Code6) : List Text → Except ErrorKind Word
  | [rd, rs, rt] =>
    match readRegister rd, readRegister rs, readRegister rt with
    | some d, some s, some t => .ok (createR ⟨0, s, t, d, 0, funct.toNat⟩)
    | _, _, _ => .error .invalidRegister
  | _ => .error .wrongArgumentCount

/-- `mnemonic rt, rs, imm` (R97): the immediate must fit in [-32768, 32767] (R93) and is masked to 16 bits. -/
def assembleI (opcode : Code6) : List Text → Except ErrorKind Word
  | [rt, rs, imm] =>
    match readRegister rt, readRegister rs with
    | some t, some s =>
      match readImmediate imm with
      | some v =>
        if -32768 ≤ v ∧ v ≤ 32767 then .ok (createI ⟨opcode.toNat, s, t, (BitVec.ofInt 16 v).toNat⟩)
        else .error .immediateOutOfRange
      | none => .error .invalidImmediate
    | _, _ => .error .invalidRegister
  | _ => .error .wrongArgumentCount

/-- `mnemonic address` (R98): decimal digits in [0, 2^26) (R93). -/
def assembleJ (opcode : Code6) : List Text → Except ErrorKind Word
  | [address] =>
    match readDecimal address with
    | some a => if a < 2 ^ 26 then .ok (createJ ⟨opcode.toNat, a⟩) else .error .invalidAddress
    | none => .error .invalidAddress
  | _ => .error .wrongArgumentCount

/-- The word of a statement. -/
def assembleStatement (st : Statement) : Except ErrorKind Word :=
  match shapeOf st.mnemonic with
  | none => .error .unknownMnemonic
  | some (.r funct) => assembleR funct st.args
  | some (.i opcode) => assembleI opcode st.args
  | some (.j opcode) => assembleJ opcode st.args

/-- The words a line emits: none for a skipped line or a label line, one for an instruction line. -/
def assembleLine (raw : Text) : Except ErrorKind (List Word) :=
  match classify raw with
  | .skipped => .ok []
  | .label _ after =>
    if Config.rejectsTextAfterLabel = true ∧ (trim after).isEmpty = false then .error .textAfterLabel else .ok []
  | .instruction t => (assembleStatement (tokenize t)).map ([·])

/-! ### The two passes -/

/-- A label with its source line number, "NOT a text-segment byte offset" (R91). -/
structure Symbol where
  name : Text
  line : Nat
  deriving DecidableEq, Repr

/-- Pass 1: the labels of the lines, numbered from `n` (R91). -/
def collectSymbols : Nat → List Text → List Symbol
  | _, [] => []
  | n, raw :: rest =>
    match classify raw with
    | .label name _ => ⟨name, n⟩ :: collectSymbols (n + 1) rest
    | _ => collectSymbols (n + 1) rest

/-- A syntax error names its line and its mnemonic (R99). -/
structure SyntaxError where
  line : Nat
  mnemonic : Text
  kind : ErrorKind
  deriving DecidableEq, Repr

/-- Pass 2: the words of the lines in source order with no gaps, or the first error (R99). -/
def emitLines : Nat → List Text → Except SyntaxError (List Word)
  | _, [] => .ok []
  | n, raw :: rest =>
    match assembleLine raw with
    | .error kind => .error ⟨n, (tokenize (trim raw)).mnemonic, kind⟩
    | .ok words => (emitLines (n + 1) rest).map (words ++ ·)

/-- The symbols of a source text (pass 1). -/
def symbolsOf (source : Text) : List Symbol := collectSymbols Config.firstLineNumber (sourceLines source)

/-- The assembler: a source text to its instruction words. -/
def assemble (source : Text) : Except SyntaxError (List Word) :=
  emitLines Config.firstLineNumber (sourceLines source)

/-- The output buffer: each word big-endian, 4 bytes a word (R99). -/
def emittedBytes (words : List Word) : List Byte := words.flatMap wordBytes

/-- `text_size` (R99). -/
def textSize (words : List Word) : Nat := 4 * words.length

/-- Source text to object file; none is written unless both passes succeed (R99). -/
def assembleObject (littleEndian : Bool) (source : Text) : Except SyntaxError (List Byte) :=
  (assemble source).map fun words => saveObject littleEndian (emittedBytes words)

end Sys2Proof.Machine.Assembler
end

