-- ==== Sys2Proof/Safety.lean ====
section
/-! DEFINITION. Runs (40_cycle.md R120, R121), the invariant of the machine, and what counts as a safe run. -/
namespace Sys2Proof.Machine

/-- What every reachable state satisfies: memory is canonical, register 0 holds zero (10_state.md R21), and
`hi` and `lo` stay zero for the whole run (R24). -/
structure State.Inv (s : State) : Prop where
  memWf : s.mem.wf = true
  regZero : s.x[0] = 0
  hiZero : s.hi = 0
  loZero : s.lo = 0

/-- A run of at most `n` steps (R120): it stops where no step is defined. -/
def runSteps : Nat → State → State
  | 0, s => s
  | n + 1, s =>
    match step s with
    | .next t => runSteps n t
    | _ => s

/-- The state has not ended in a fault. -/
def State.unfaulted (s : State) : Bool :=
  match s.status with
  | .faulted _ => false
  | _ => true

/-- A run from `s` is safe when no step of it ends in a fault. -/
def RunsSafely (s : State) : Prop := ∀ n, (runSteps n s).unfaulted = true

/-- A run from `s` ends normally with an exit code (R206). -/
def HaltsWith (s : State) (code : Word) : Prop := ∃ n, (runSteps n s).status = .halted code

/-- The observable result of a finite run (R121). -/
structure RunResult where
  status : RunStatus
  x : Vector Word 32
  pc : Word
  hi : Word
  lo : Word
  mem : Memory
  out : List Byte
  deriving DecidableEq, Repr

/-- The result a state shows once its run has ended; none while it is running. -/
def State.result (s : State) : Option RunResult :=
  match s.status with
  | .running => none
  | st => some ⟨st, s.x, s.pc, s.hi, s.lo, s.mem, s.out⟩

end Sys2Proof.Machine
end

