-- ==== Sys2Proof/Certificates/Slice0/Obligations.lean ====
section
/-! DEFINITION. The statements for the provers, from the numbered rules of spec/, with the predicates they are written in. A statement about `exec` is about the state AFTER the fetch, where `pc` is `pc_i + 4` (00_scope.md R14); `Obligations.StepRunsDecodedInstruction` carries it to a step. -/
namespace Sys2Proof.Claims
open Sys2Proof.Machine

/-! ### Frames -/

/-- Every byte of memory reads as before. -/
def SameMemory (s t : State) : Prop := ∀ a, t.mem.read a = s.mem.read a

/-- Every general register reads as before. -/
def SameRegs (s t : State) : Prop := ∀ r, t.reg r = s.reg r

/-- `hi`, `lo` and the parameters are as before. -/
def SameSpecials (s t : State) : Prop := t.hi = s.hi ∧ t.lo = s.lo ∧ t.params = s.params

/-- The output and the host's answers are as before. -/
def SameHost (s t : State) : Prop := t.out = s.out ∧ t.draws = s.draws ∧ t.drawCount = s.drawCount

/-- From `s` to `t` only register `d` changes, to `v`; nothing changes when `d` is register 0. -/
def OnlyRegister (s t : State) (d : RegIdx) (v : Word) : Prop :=
  (∀ r, t.reg r = if r = d ∧ d ≠ 0 then v else s.reg r) ∧ t.pc = s.pc ∧ t.status = s.status ∧
    SameMemory s t ∧ SameSpecials s t ∧ SameHost s t

/-- From `s` to `t` only `pc` changes, to `target`. -/
def OnlyPc (s t : State) (target : Word) : Prop :=
  t.pc = target ∧ t.status = s.status ∧ SameRegs s t ∧ SameMemory s t ∧ SameSpecials s t ∧ SameHost s t

/-- From `s` to `t` only the run status changes, to `st`. -/
def OnlyStatus (s t : State) (st : RunStatus) : Prop :=
  t.status = st ∧ t.pc = s.pc ∧ SameRegs s t ∧ SameMemory s t ∧ SameSpecials s t ∧ SameHost s t

/-- From `s` to `t` only the output changes: `bytes` are appended. -/
def OnlyOutput (s t : State) (bytes : List Byte) : Prop :=
  t.out = s.out ++ bytes ∧ t.pc = s.pc ∧ t.status = s.status ∧ SameRegs s t ∧ SameMemory s t ∧
    SameSpecials s t ∧ t.draws = s.draws ∧ t.drawCount = s.drawCount

/-! ### Memory, in numbers -/

/-- The big-endian value of `n` bytes from `a` upward. -/
def bigEndian (m : Memory) (a : Nat) : Nat → Nat
  | 0 => 0
  | n + 1 => bigEndian m a n * 256 + (m.read (a + n)).toNat

/-- The access stays inside the address space (R43). -/
def InSpace (a : Word) (n : Nat) : Prop := a.toNat + n ≤ 2 ^ 32

/-- A byte of the access lies below TEXT_OFFSET (R52). -/
def TouchesReserved (a : Word) (n : Nat) : Prop := ∃ k, k < n ∧ a.toNat + k < 0x00400000

/-- A byte of the access lies in the text region (R53). -/
def TouchesText (a : Word) (n : Nat) : Prop :=
  ∃ k, k < n ∧ 0x00400000 ≤ a.toNat + k ∧ a.toNat + k ≤ 0x0FFFFFFF

/-- No region check refuses a read of `n` bytes at `a` (R52). -/
def ReadAllowed (p : Params) (a : Word) (n : Nat) : Prop := ¬ (p.reservedLowFaults = true ∧ TouchesReserved a n)

/-- No region check refuses a store of `n` bytes at `a` (R52, R53). -/
def StoreAllowed (p : Params) (a : Word) (n : Nat) : Prop :=
  ReadAllowed p a n ∧ ¬ (p.textReadOnly = true ∧ TouchesText a n)

/-- `bytes` is the string at `a`: no byte of it is zero, and the zero that ends it lies in the address space
(R48). -/
def StringAt (m : Memory) (a : Nat) (bytes : List Byte) : Prop :=
  a + bytes.length < 2 ^ 32 ∧ (∀ k (h : k < bytes.length), m.read (a + k) = bytes[k] ∧ bytes[k] ≠ 0) ∧
    m.read (a + bytes.length) = 0

/-- No zero byte from `a` to the top of memory (R48). -/
def NoZeroFrom (m : Memory) (a : Nat) : Prop := ∀ k, a ≤ k → k < 2 ^ 32 → m.read k ≠ 0

/-- A step from `s` fetches the word `w` (R111): running, the four bytes at `pc` are in bounds and may be
read, and they are `w`. -/
def Fetches (s : State) (w : Word) : Prop :=
  s.status = .running ∧ InSpace s.pc 4 ∧ ReadAllowed s.params s.pc 4 ∧
    w.toNat = bigEndian s.mem s.pc.toNat 4

/-! ### Other predicates -/

/-- `text` is the decimal ASCII text of `n` (R182): an optional `-`, then digits with no leading zero. -/
def IsDecimalText (n : Int) (text : List Byte) : Prop :=
  ∃ digits : List Nat,
    text = (if n < 0 then [0x2D] else []) ++ digits.map (fun d => BitVec.ofNat 8 (0x30 + d)) ∧
    (∀ d ∈ digits, d < 10) ∧ digits ≠ [] ∧ (digits.head? = some 0 → digits = [0]) ∧
    digits.foldl (fun acc d => 10 * acc + d) 0 = n.natAbs

/-- The register an instruction may write (10_state.md R22). -/
def destination : Instr → State → Option RegIdx
  | .add rd _ _ _, _ | .sub rd _ _ _, _ | .and rd _ _ _, _ | .or rd _ _ _, _ => some rd
  | .lw rt _ _, _ | .lui rt _ _, _ | .ori rt _ _, _ | .nori rt _ _, _ | .slti rt _ _, _ => some rt
  | .jal _, _ => some 31
  | .syscall _ _ _, s => if s.reg 2 = 5 then some 2 else none
  | .sw .., _ | .beq .., _ | .bne .., _ | .bgtz .., _ | .j .., _ | .syscallRtype .., _ | .addi .., _
  | .addiu .., _ => none

/-- `s` with other contents of `hi` and `lo`. -/
def withHiLo (h l : Word) (s : State) : State := { s with hi := h, lo := l }

/-- A function applied to the next state of an outcome. -/
def mapNext (f : State → State) : Outcome → Outcome
  | .next t => .next (f t)
  | .fault r => .fault r
  | .refused r => .refused r

/-- The fault was raised by the fetch (R202). -/
def FetchFault (f : CoreFault) : Prop := ∃ a n, f = .memBounds a n .fetch ∨ f = .memRegion a n .fetch

/-- The byte an image puts at an address: that of the last block that covers it, else zero. -/
def imageByte (image : LaunchImage) (a : Nat) : Byte :=
  image.foldl (fun b block =>
    if block.1 ≤ a ∧ a < block.1 + block.2.length then block.2.getD (a - block.1) 0 else b) 0

/-- The value of a u32 header field, by HEADER_LITTLE_ENDIAN (R233). -/
def headerValue (littleEndian : Bool) (b0 b1 b2 b3 : Byte) : Nat :=
  if littleEndian = true then b0.toNat + 2 ^ 8 * b1.toNat + 2 ^ 16 * b2.toNat + 2 ^ 24 * b3.toNat
  else 2 ^ 24 * b0.toNat + 2 ^ 16 * b1.toNat + 2 ^ 8 * b2.toNat + b3.toNat

/-- The token `$t` and the digit `d` (30_encoding.md R95). -/
def regToken (d : Nat) : List Char := ['$', 't', Char.ofNat (48 + d)]

end Sys2Proof.Claims

section
open Sys2Proof Sys2Proof.Machine Sys2Proof.Claims

/-! ### The codec -/

/-- R71, R76, R77, R78: decode of encode is the instruction, for every instruction and every value of every
field, over the word and over its bytes in memory order. -/
def Obligations.DecodeOfEncodeIsTheInstruction : Prop :=
  ∀ i : Instr, decode (encode i) = .ok i ∧ decodeBytes (wordBytes (encode i)) = some (.ok i, [])

/-- R71, R78: a word that decodes to an instruction is that instruction's encoding, so the decoder drops no
bit of it. -/
def Obligations.EncodeOfDecodeIsTheWord : Prop :=
  ∀ (w : Word) (i : Instr), decode w = .ok i → encode i = w

/-- R71: the fields are these slices of the word. -/
def Obligations.FieldsAreBitSlices : Prop :=
  ∀ w : Word, (opcodeOf w).toNat = w.toNat / 2 ^ 26 ∧ (rsOf w).toNat = w.toNat / 2 ^ 21 % 32 ∧
    (rtOf w).toNat = w.toNat / 2 ^ 16 % 32 ∧ (rdOf w).toNat = w.toNat / 2 ^ 11 % 32 ∧
    (shamtOf w).toNat = w.toNat / 2 ^ 6 % 32 ∧ (functOf w).toNat = w.toNat % 64 ∧
    (immOf w).toNat = w.toNat % 65536 ∧ (targetOf w).toNat = w.toNat % 2 ^ 26

/-- R75: the packers are these sums of masked fields, and the fields of a packed tuple that fits its widths
are the tuple. -/
def Obligations.PackersRoundTrip : Prop :=
  (∀ f : RFields, (createR f).toNat = f.op % 64 * 2 ^ 26 + f.rs % 32 * 2 ^ 21 + f.rt % 32 * 2 ^ 16 +
      f.rd % 32 * 2 ^ 11 + f.shamt % 32 * 2 ^ 6 + f.funct % 64) ∧
  (∀ f : IFields, (createI f).toNat = f.op % 64 * 2 ^ 26 + f.rs % 32 * 2 ^ 21 + f.rt % 32 * 2 ^ 16 +
      f.imm % 65536) ∧
  (∀ f : JFields, (createJ f).toNat = f.op % 64 * 2 ^ 26 + f.target % 2 ^ 26) ∧
  (∀ f : RFields, f.fits = true → RFields.mk (opcodeOf (createR f)).toNat (rsOf (createR f)).toNat
      (rtOf (createR f)).toNat (rdOf (createR f)).toNat (shamtOf (createR f)).toNat
      (functOf (createR f)).toNat = f) ∧
  (∀ f : IFields, f.fits = true → IFields.mk (opcodeOf (createI f)).toNat (rsOf (createI f)).toNat
      (rtOf (createI f)).toNat (immOf (createI f)).toNat = f) ∧
  (∀ f : JFields, f.fits = true → JFields.mk (opcodeOf (createJ f)).toNat (targetOf (createJ f)).toNat = f)

/-- R76, R77, R78: which instruction a word is, by the numbers of its opcode and funct alone; every other
field may hold any value.
Ignored fields and the faulting rows rest on decisions D1, D2 and D3 of the spec (log 8, log 16). -/
def Obligations.OpcodeAndFunctSelectTheInstruction : Prop :=
  ∀ w : Word,
    (w.toNat / 2 ^ 26 = 0 →
      (w.toNat % 64 = 0x20 → decode w = .ok (.add (rdOf w) (rsOf w) (rtOf w) (shamtOf w))) ∧
      (w.toNat % 64 = 0x22 → decode w = .ok (.sub (rdOf w) (rsOf w) (rtOf w) (shamtOf w))) ∧
      (w.toNat % 64 = 0x24 → decode w = .ok (.and (rdOf w) (rsOf w) (rtOf w) (shamtOf w))) ∧
      (w.toNat % 64 = 0x25 → decode w = .ok (.or (rdOf w) (rsOf w) (rtOf w) (shamtOf w))) ∧
      (w.toNat % 64 = 0x0C → decode w = .ok (.syscallRtype (rdOf w) (rsOf w) (rtOf w) (shamtOf w))) ∧
      (w.toNat % 64 ∉ [0x20, 0x22, 0x24, 0x25, 0x0C] → decode w = .error (.unknownFunct (functOf w)))) ∧
    (w.toNat / 2 ^ 26 = 0x0C → decode w = .ok (.syscall (rtOf w) (rsOf w) (immOf w))) ∧
    (w.toNat / 2 ^ 26 = 0x23 → decode w = .ok (.lw (rtOf w) (rsOf w) (immOf w))) ∧
    (w.toNat / 2 ^ 26 = 0x2B → decode w = .ok (.sw (rtOf w) (rsOf w) (immOf w))) ∧
    (w.toNat / 2 ^ 26 = 0x0F → decode w = .ok (.lui (rtOf w) (rsOf w) (immOf w))) ∧
    (w.toNat / 2 ^ 26 = 0x0D → decode w = .ok (.ori (rtOf w) (rsOf w) (immOf w))) ∧
    (w.toNat / 2 ^ 26 = 0x0E → decode w = .ok (.nori (rtOf w) (rsOf w) (immOf w))) ∧
    (w.toNat / 2 ^ 26 = 0x0A → decode w = .ok (.slti (rtOf w) (rsOf w) (immOf w))) ∧
    (w.toNat / 2 ^ 26 = 0x04 → decode w = .ok (.beq (rtOf w) (rsOf w) (immOf w))) ∧
    (w.toNat / 2 ^ 26 = 0x05 → decode w = .ok (.bne (rtOf w) (rsOf w) (immOf w))) ∧
    (w.toNat / 2 ^ 26 = 0x07 → decode w = .ok (.bgtz (rtOf w) (rsOf w) (immOf w))) ∧
    (w.toNat / 2 ^ 26 = 0x02 → decode w = .ok (.j (targetOf w))) ∧
    (w.toNat / 2 ^ 26 = 0x03 → decode w = .ok (.jal (targetOf w))) ∧
    (w.toNat / 2 ^ 26 = 0x08 → decode w = .ok (.addi (rtOf w) (rsOf w) (immOf w))) ∧
    (w.toNat / 2 ^ 26 = 0x09 → decode w = .ok (.addiu (rtOf w) (rsOf w) (immOf w))) ∧
    (w.toNat / 2 ^ 26 ∉ [0x00, 0x02, 0x03, 0x04, 0x05, 0x07, 0x08, 0x09, 0x0A, 0x0C, 0x0D, 0x0E, 0x0F, 0x23, 0x2B] →
      decode w = .error (.unknownOpcode (opcodeOf w)))

/-- R81: no two rows of the opcode table overlap; a word decodes to an instruction exactly when a row covers
it, and that row is the instruction's. -/
def Obligations.TableRowsAreDisjointAndDecide : Prop :=
  (∀ w : Word, ∀ r₁ ∈ opcodeTable, ∀ r₂ ∈ opcodeTable, r₁.covers w = true → r₂.covers w = true → r₁ = r₂) ∧
  (∀ (w : Word) (i : Instr), decode w = .ok i → ∃ r ∈ opcodeTable, r.covers w = true ∧ r.mnemonic = i.mnemonic) ∧
  (∀ (w : Word) (e : IllegalWord), decode w = .error e → ∀ r ∈ opcodeTable, r.covers w = false)

/-- A sanity check: words of the spec's examples decode to the instructions they stand for. -/
def Obligations.ListedWordsDecode : Prop :=
  decode 0x00430960 = .ok (.add 1 2 3 5) ∧ decode 0xAC23FFFC = .ok (.sw 3 1 0xFFFC) ∧
    decode 0x3C031000 = .ok (.lui 3 0 0x1000) ∧ decode 0x1406FFFC = .ok (.bne 6 0 0xFFFC) ∧
    decode 0x0C001000 = .ok (.jal 0x1000) ∧ decode 0x30000000 = .ok (.syscall 0 0 0) ∧
    decode 0x00000000 = .error (.unknownFunct 0) ∧ decode 0xFC000000 = .error (.unknownOpcode 0x3F)

/-! ### The step -/

/-- R111, R112, R113: a step whose fetched word decodes to an instruction is that instruction's `exec`, from
the state with `pc` 4 further (modulo 2^32).
That `pc + 4` wraps and that a fetch needs no alignment are decisions D4 and D6 of the spec (log 8). -/
def Obligations.StepRunsDecodedInstruction : Prop :=
  ∀ (s : State) (w : Word) (i : Instr), Fetches s w → decode w = .ok i →
    step s = exec i { s with pc := s.pc + 4 }

/-- R111: a fetch outside the address space faults with `MemBounds(pc_i, 4, Fetch)`, one that RESERVED_LOW_FAULTS
refuses with `MemRegion`; `pc` is left at `pc_i` and nothing else changes.
The outcome is decision D7 of the spec (log 8). -/
def Obligations.FetchFaultLeavesPc : Prop :=
  ∀ s : State, s.status = .running →
    (¬ InSpace s.pc 4 → ∃ t, step s = .next t ∧ OnlyStatus s t (.faulted (.memBounds s.pc 4 .fetch))) ∧
    (InSpace s.pc 4 → ¬ ReadAllowed s.params s.pc 4 →
      ∃ t, step s = .next t ∧ OnlyStatus s t (.faulted (.memRegion s.pc 4 .fetch)))

/-- R115: opcode 0 with any funct but the four executed ones, 0x0C among them, ends the step in
`Faulted(UnknownFunct(funct))` with `pc = pc_i + 4` and no other change.
Funct 0x0C and the outcome rest on decisions D1 and D7 of the spec (log 8). -/
def Obligations.UnknownFunctFaults : Prop :=
  ∀ (s : State) (w : Word), Fetches s w → opcodeOf w = 0x00 →
    functOf w ≠ 0x20 → functOf w ≠ 0x22 → functOf w ≠ 0x24 → functOf w ≠ 0x25 →
    ∃ t, step s = .next t ∧
      OnlyStatus { s with pc := s.pc + 4 } t (.faulted (.unknownFunct (functOf w)))

/-- R116: an opcode that is not an executed one, `addi` and `addiu` among them, ends the step in
`Faulted(UnknownOpcode(opcode))` with `pc = pc_i + 4` and no other change.
`addi`, `addiu` and the outcome rest on decisions D2 and D7 of the spec (log 8). -/
def Obligations.UnknownOpcodeFaults : Prop :=
  ∀ (s : State) (w : Word), Fetches s w →
    opcodeOf w ∉ [0x00, 0x0C, 0x02, 0x03, 0x23, 0x2B, 0x0F, 0x0D, 0x0E, 0x0A, 0x04, 0x05, 0x07] →
    ∃ t, step s = .next t ∧
      OnlyStatus { s with pc := s.pc + 4 } t (.faulted (.unknownOpcode (opcodeOf w)))

/-- R115, R116: the effect of the three rows of the table that the core does not execute: each takes its
fault and changes nothing else.
They rest on decisions D1, D2 and D7 of the spec (log 8). -/
def Obligations.FaultingRowsTakeTheirFault : Prop :=
  (∀ rd rs rt shamt s, ∃ t, exec (.syscallRtype rd rs rt shamt) s = .next t ∧
    OnlyStatus s t (.faulted (.unknownFunct 0x0C))) ∧
  (∀ rt rs imm s, ∃ t, exec (.addi rt rs imm) s = .next t ∧ OnlyStatus s t (.faulted (.unknownOpcode 0x08))) ∧
  (∀ rt rs imm s, ∃ t, exec (.addiu rt rs imm) s = .next t ∧ OnlyStatus s t (.faulted (.unknownOpcode 0x09)))

/-- R110, R27: a step answers a next state exactly from `Running`; from `Halted` and `Faulted`, which are
terminal, it stops under the name of the status.
That the two are terminal is decisions D7 and D24 of the spec (log 8); that the model stops there under a
fault of its own is the model's choice (log 1). -/
def Obligations.StepIsDefinedExactlyWhileRunning : Prop :=
  (∀ s : State, (∃ t, step s = .next t) ↔ s.status = .running) ∧
  (∀ (s : State) (code : Word), s.status = .halted code → step s = .fault (.halted code)) ∧
  (∀ (s : State) (f : CoreFault), s.status = .faulted f → step s = .fault (.faulted f))

/-- R14, R110: every instruction, with any operands, in any state, answers a next state. -/
def Obligations.EveryInstructionCompletes : Prop :=
  ∀ (i : Instr) (s : State), ∃ t, exec i s = .next t

/-! ### Rules of the whole machine -/

/-- The invariant holds after reset. -/
def Obligations.ResetMeetsInvariant : Prop := State.reset.Inv

/-- R21, R24, R40: every step keeps memory canonical, the stored register 0 at zero, and `hi` and `lo` at
zero, from every state, reachable or not. That `hi` and `lo` stay zero is decision D23 of the spec (log 8). -/
def Obligations.StepKeepsInvariant : Prop :=
  ∀ s t : State, s.Inv → step s = .next t → t.Inv

/-- R24: no step reads or writes `hi` or `lo`: with any other contents of the two, the step is the same, and
the contents stay. -/
def Obligations.HiLoAreNeitherReadNorWritten : Prop :=
  ∀ (s : State) (h l : Word), step (withHiLo h l s) = mapNext (withHiLo h l) (step s)

/-- The model's own field (log 2): no step changes the parameters. -/
def Obligations.StepKeepsParameters : Prop :=
  ∀ s t : State, step s = .next t → t.params = s.params

/-- R28: a step only appends to the output. R117, R202, R203: it appends nothing when it ends in a fault.
The clause about a fault is not R28's: it rests on decision D7 of the spec (log 8), and the spec marks R203
as derived. -/
def Obligations.OutputOnlyGrows : Prop :=
  ∀ s t : State, step s = .next t →
    ∃ bytes, t.out = s.out ++ bytes ∧ ((∃ f, t.status = .faulted f) → bytes = [])

/-- R202: a step that ends in a fault commits the status and, after a successful fetch, `pc = pc_i + 4`;
nothing else, and no step follows.
The outcome is decision D7 of the spec (log 8). -/
def Obligations.FaultCommitsOnlyPcAndStatus : Prop :=
  ∀ (s t : State) (f : CoreFault), step s = .next t → t.status = .faulted f →
    (FetchFault f → t = { s with status := .faulted f }) ∧
    (¬ FetchFault f → t = { s with pc := s.pc + 4, status := .faulted f }) ∧
    step t = .fault (.faulted f)

/-- R45, R50, R183: only `sw` changes memory: any other step leaves the memory as it is.
For a step that faults it rests on decision D7 of the spec (log 8). -/
def Obligations.OnlyStoreChangesMemory : Prop :=
  ∀ s t : State, (∀ w, Fetches s w → opcodeOf w ≠ 0x2B) → step s = .next t → t.mem = s.mem

/-- R22: a register changes only where it is the instruction's destination: `rd` or `rt`, register 31 for
`jal`, register 2 for service 5.
For a step that faults it rests on decision D7 of the spec (log 8). -/
def Obligations.OnlyDestinationRegisterChanges : Prop :=
  ∀ (i : Instr) (s t : State), exec i s = .next t →
    ∀ r, destination i s ≠ some r → t.reg r = s.reg r

/-- R206, R185: a step halts exactly when it runs `syscall` with service code 10, with the code of register 4.
That the code of the service is compared on all 32 bits, that bits 25:0 of the word are ignored and that the
exit code is the full register are decisions D16, D3 and D15 of the spec (log 8). -/
def Obligations.OnlyExitHalts : Prop :=
  ∀ (s t : State) (w code : Word), Fetches s w → step s = .next t →
    (t.status = .halted code ↔ opcodeOf w = 0x0C ∧ s.reg 2 = 10 ∧ s.reg 4 = code)

/-- R21: register 0 reads zero in every state and a write to it is discarded; a write to another register is
read there and nowhere else. -/
def Obligations.RegisterFileLaw : Prop :=
  ∀ (s : State) (d r : RegIdx) (v : Word), s.reg 0 = 0 ∧ s.setReg 0 v = s ∧
    (d ≠ 0 → (s.setReg d v).reg d = v) ∧ (r ≠ d → (s.setReg d v).reg r = s.reg r)

/-! ### R-type instructions -/

/-- R130: `add` writes the sum modulo 2^32, for every register and every `shamt`, and never faults.
No overflow trap and no use of `shamt` are decisions D4 and D3 of the spec (log 8). -/
def Obligations.AddWritesSumModulo : Prop :=
  (∀ w, opcodeOf w = 0x00 → functOf w = 0x20 → decode w = .ok (.add (rdOf w) (rsOf w) (rtOf w) (shamtOf w))) ∧
  ∀ rd rs rt shamt s, ∃ (t : State) (v : Word), exec (.add rd rs rt shamt) s = .next t ∧
    v.toNat = ((s.reg rs).toNat + (s.reg rt).toNat) % 2 ^ 32 ∧ OnlyRegister s t rd v

/-- R131: `sub` writes the difference modulo 2^32, `rt` subtracted from `rs`.
No overflow trap and no use of `shamt` are decisions D4 and D3 of the spec (log 8). -/
def Obligations.SubWritesDifferenceModulo : Prop :=
  (∀ w, opcodeOf w = 0x00 → functOf w = 0x22 → decode w = .ok (.sub (rdOf w) (rsOf w) (rtOf w) (shamtOf w))) ∧
  ∀ rd rs rt shamt s, ∃ (t : State) (v : Word), exec (.sub rd rs rt shamt) s = .next t ∧
    (v.toNat : Int) = ((s.reg rs).toNat - (s.reg rt).toNat : Int) % 2 ^ 32 ∧ OnlyRegister s t rd v

/-- R132, R133: `and` and `or` write, in each bit, the conjunction and the disjunction of the bits, for every
`shamt`.
That `shamt` is ignored is decision D3 of the spec (log 8). -/
def Obligations.AndOrWorkBitByBit : Prop :=
  (∀ w, opcodeOf w = 0x00 → functOf w = 0x24 → decode w = .ok (.and (rdOf w) (rsOf w) (rtOf w) (shamtOf w))) ∧
  (∀ w, opcodeOf w = 0x00 → functOf w = 0x25 → decode w = .ok (.or (rdOf w) (rsOf w) (rtOf w) (shamtOf w))) ∧
  (∀ rd rs rt shamt s, ∃ (t : State) (v : Word), exec (.and rd rs rt shamt) s = .next t ∧
    (∀ k, v.getLsbD k = ((s.reg rs).getLsbD k && (s.reg rt).getLsbD k)) ∧ OnlyRegister s t rd v) ∧
  (∀ rd rs rt shamt s, ∃ (t : State) (v : Word), exec (.or rd rs rt shamt) s = .next t ∧
    (∀ k, v.getLsbD k = ((s.reg rs).getLsbD k || (s.reg rt).getLsbD k)) ∧ OnlyRegister s t rd v)

/-! ### I-type instructions -/

/-- R150: `lui` writes the immediate times 2^16, whatever `rs` names.
That `rs` is ignored is decision D3 of the spec (log 8). -/
def Obligations.LuiWritesUpperImmediate : Prop :=
  (∀ w, opcodeOf w = 0x0F → decode w = .ok (.lui (rtOf w) (rsOf w) (immOf w))) ∧
  ∀ rt rs imm s, ∃ (t : State) (v : Word), exec (.lui rt rs imm) s = .next t ∧
    v.toNat = imm.toNat * 65536 ∧ OnlyRegister s t rt v

/-- R151, R152: `ori` writes the bits of `rs` or the zero-extended immediate, `nori` their complement. -/
def Obligations.OriNoriWorkBitByBit : Prop :=
  (∀ w, opcodeOf w = 0x0D → decode w = .ok (.ori (rtOf w) (rsOf w) (immOf w))) ∧
  (∀ w, opcodeOf w = 0x0E → decode w = .ok (.nori (rtOf w) (rsOf w) (immOf w))) ∧
  (∀ rt rs imm s, ∃ (t : State) (v : Word), exec (.ori rt rs imm) s = .next t ∧
    (∀ k, v.getLsbD k = ((s.reg rs).getLsbD k || imm.getLsbD k)) ∧ OnlyRegister s t rt v) ∧
  (∀ rt rs imm s, ∃ (t : State) (v : Word), exec (.nori rt rs imm) s = .next t ∧
    (∀ k, k < 32 → v.getLsbD k = !((s.reg rs).getLsbD k || imm.getLsbD k)) ∧ OnlyRegister s t rt v)

/-- R154: `slti` writes 1 when the signed register is below the signed immediate, else 0. -/
def Obligations.SltiComparesSigned : Prop :=
  (∀ w, opcodeOf w = 0x0A → decode w = .ok (.slti (rtOf w) (rsOf w) (immOf w))) ∧
  ∀ rt rs imm s, ∃ t : State, exec (.slti rt rs imm) s = .next t ∧
    OnlyRegister s t rt (if (s.reg rs).toInt < imm.toInt then 1 else 0)

/-! ### Load and store -/

/-- R140: `lw` loads the big-endian word at `x[rs] + sext(imm)` modulo 2^32, aligned or not; outside the address
space it ends in `MemBounds(ea, 4, Load)`, in a refused region in `MemRegion`, with `x[rt]` unchanged, for
register 0 as destination too.
The wrap, the missing alignment check and the outcome of a fault are decisions D5, D6 and D7 of the spec (log 8). -/
def Obligations.LwLoadsOrFaults : Prop :=
  (∀ w, opcodeOf w = 0x23 → decode w = .ok (.lw (rtOf w) (rsOf w) (immOf w))) ∧
  ∀ (rt rs : RegIdx) (imm : Imm16) (s : State) (ea : Word), ea = s.reg rs + BitVec.ofInt 32 imm.toInt →
    (InSpace ea 4 → ReadAllowed s.params ea 4 → ∃ (t : State) (v : Word), exec (.lw rt rs imm) s = .next t ∧
      v.toNat = bigEndian s.mem ea.toNat 4 ∧ OnlyRegister s t rt v) ∧
    (¬ InSpace ea 4 → ∃ t, exec (.lw rt rs imm) s = .next t ∧
      OnlyStatus s t (.faulted (.memBounds ea 4 .load))) ∧
    (InSpace ea 4 → ¬ ReadAllowed s.params ea 4 → ∃ t, exec (.lw rt rs imm) s = .next t ∧
      OnlyStatus s t (.faulted (.memRegion ea 4 .load)))

/-- R141: `sw` stores `x[rs] + sext(imm)` modulo 2^32, big-endian, at the address `x[rt]`, aligned or not; every
byte outside the four reads as before and nothing else changes. Premise: memory is canonical, which every
step keeps (`Obligations.StepKeepsInvariant`).
The wrap of the value and the missing alignment check are decisions D4 and D6 of the spec (log 8). -/
def Obligations.SwStoresWord : Prop :=
  (∀ w, opcodeOf w = 0x2B → decode w = .ok (.sw (rtOf w) (rsOf w) (immOf w))) ∧
  ∀ (rt rs : RegIdx) (imm : Imm16) (s : State), s.mem.wf = true →
    InSpace (s.reg rt) 4 → StoreAllowed s.params (s.reg rt) 4 →
    ∃ t, exec (.sw rt rs imm) s = .next t ∧
      bigEndian t.mem (s.reg rt).toNat 4 = (s.reg rs + BitVec.ofInt 32 imm.toInt).toNat ∧
      (∀ a, a < (s.reg rt).toNat ∨ (s.reg rt).toNat + 4 ≤ a → t.mem.read a = s.mem.read a) ∧
      t.pc = s.pc ∧ t.status = s.status ∧ SameRegs s t ∧ SameSpecials s t ∧ SameHost s t

/-- R141: `sw` at an address outside the address space ends in `MemBounds(a, 4, Store)`, in a refused region in
`MemRegion(a, 4, Store)`, and no byte is written.
The region faults and the outcome rest on decisions D7, D9 and D10 of the spec (log 8). -/
def Obligations.SwFaultsWriteNothing : Prop :=
  ∀ (rt rs : RegIdx) (imm : Imm16) (s : State),
    (¬ InSpace (s.reg rt) 4 → ∃ t, exec (.sw rt rs imm) s = .next t ∧
      OnlyStatus s t (.faulted (.memBounds (s.reg rt) 4 .store))) ∧
    (InSpace (s.reg rt) 4 → ¬ StoreAllowed s.params (s.reg rt) 4 → ∃ t, exec (.sw rt rs imm) s = .next t ∧
      OnlyStatus s t (.faulted (.memRegion (s.reg rt) 4 .store)))

/-! ### Branches and jumps -/

/-- R160, R161: `beq` and `bne` compare all 32 bits; when taken, `pc` moves by four times the signed immediate
from `pc_i + 4`, modulo 2^32.
That the target wraps is decision D4 of the spec (log 8). -/
def Obligations.BeqBneBranch : Prop :=
  (∀ w, opcodeOf w = 0x04 → decode w = .ok (.beq (rtOf w) (rsOf w) (immOf w))) ∧
  (∀ w, opcodeOf w = 0x05 → decode w = .ok (.bne (rtOf w) (rsOf w) (immOf w))) ∧
  ∀ (rt rs : RegIdx) (imm : Imm16) (s : State),
    (∃ t, exec (.beq rt rs imm) s = .next t ∧
      OnlyPc s t (if s.reg rs = s.reg rt then s.pc + BitVec.ofInt 32 (4 * imm.toInt) else s.pc)) ∧
    (∃ t, exec (.bne rt rs imm) s = .next t ∧
      OnlyPc s t (if s.reg rs = s.reg rt then s.pc else s.pc + BitVec.ofInt 32 (4 * imm.toInt)))

/-- R162: `bgtz` branches when the signed register is positive, whatever `rt` names.
That `rt` is ignored and that the target wraps are decisions D3 and D4 of the spec (log 8). -/
def Obligations.BgtzBranches : Prop :=
  (∀ w, opcodeOf w = 0x07 → decode w = .ok (.bgtz (rtOf w) (rsOf w) (immOf w))) ∧
  ∀ (rt rs : RegIdx) (imm : Imm16) (s : State), ∃ t, exec (.bgtz rt rs imm) s = .next t ∧
    OnlyPc s t (if 0 < (s.reg rs).toInt then s.pc + BitVec.ofInt 32 (4 * imm.toInt) else s.pc)

/-- R163: after a branch `pc` has the alignment it had before, taken or not.
The spec marks this rule as derived. -/
def Obligations.BranchesKeepAlignment : Prop :=
  ∀ (rt rs : RegIdx) (imm : Imm16) (s t : State),
    exec (.beq rt rs imm) s = .next t ∨ exec (.bne rt rs imm) s = .next t ∨ exec (.bgtz rt rs imm) s = .next t →
    t.pc.toNat % 4 = s.pc.toNat % 4

/-- R170: `j` sets `pc` to the raw 26-bit target, a multiple of 4 or not.
That no alignment is required of the target is decision D6 of the spec (log 8). -/
def Obligations.JumpGoesToRawTarget : Prop :=
  (∀ w, opcodeOf w = 0x02 → decode w = .ok (.j (targetOf w))) ∧
  ∀ (target : Target26) (s : State), ∃ (t : State) (v : Word), exec (.j target) s = .next t ∧
    v.toNat = target.toNat ∧ OnlyPc s t v

/-- R171: `jal` writes `pc_i + 4` to register 31 and sets `pc` to the raw target. -/
def Obligations.JalLinksAndJumps : Prop :=
  (∀ w, opcodeOf w = 0x03 → decode w = .ok (.jal (targetOf w))) ∧
  ∀ (target : Target26) (s : State), ∃ t, exec (.jal target) s = .next t ∧
    t.pc.toNat = target.toNat ∧ t.reg 31 = s.pc ∧ (∀ r, r ≠ 31 → t.reg r = s.reg r) ∧
    t.status = s.status ∧ SameMemory s t ∧ SameSpecials s t ∧ SameHost s t

/-! ### Syscall -/

/-- R181, R182: service 1 appends the decimal text of register 4, signed or unsigned by PRINT_INT_SIGNED.
The sign and the format are decisions D11 and D12 of the spec (log 8). -/
def Obligations.PrintIntAppendsDecimal : Prop :=
  ∀ (rt rs : RegIdx) (imm : Imm16) (s : State), s.reg 2 = 1 →
    ∃ (t : State) (text : List Byte), exec (.syscall rt rs imm) s = .next t ∧
      IsDecimalText (if s.params.printIntSigned = true then (s.reg 4).toInt else ((s.reg 4).toNat : Int)) text ∧
      OnlyOutput s t text

/-- R183: service 4 appends the bytes of the string at register 4 without its zero; a string with no end faults
with `MemBounds(x[4], 2^32 - x[4], StringRead)` and one that starts in a refused region with `MemRegion`, and
then nothing is written.
The faults are decision D14 of the spec (log 8); the size in a region fault is left open (log 6). -/
def Obligations.PrintStringAppendsOrFaults : Prop :=
  ∀ (rt rs : RegIdx) (imm : Imm16) (s : State), s.reg 2 = 4 →
    (∀ bytes, ReadAllowed s.params (s.reg 4) 1 → StringAt s.mem (s.reg 4).toNat bytes →
      ∃ t, exec (.syscall rt rs imm) s = .next t ∧ OnlyOutput s t bytes) ∧
    (ReadAllowed s.params (s.reg 4) 1 → NoZeroFrom s.mem (s.reg 4).toNat →
      ∃ t, exec (.syscall rt rs imm) s = .next t ∧
        OnlyStatus s t (.faulted (.memBounds (s.reg 4) (2 ^ 32 - (s.reg 4).toNat) .stringRead))) ∧
    (¬ ReadAllowed s.params (s.reg 4) 1 →
      ∃ t n, exec (.syscall rt rs imm) s = .next t ∧
        OnlyStatus s t (.faulted (.memRegion (s.reg 4) n .stringRead)))

/-- R184, in the model's form of the draw (log 4): service 5 writes to register 2 the oldest settled answer,
any word at all, or, with none settled, the free answer; only register 2 and the host's answers change.
That the draw is any word is decision D13 of the spec. -/
def Obligations.ReadIntWritesTheDraw : Prop :=
  ∀ (rt rs : RegIdx) (imm : Imm16) (s : State), s.reg 2 = 5 →
    ∃ t, exec (.syscall rt rs imm) s = .next t ∧
      (∀ d rest, s.draws = d :: rest → t.reg 2 = d ∧ t.draws = rest ∧ t.drawCount = s.drawCount) ∧
      (s.draws = [] → t.reg 2 = Config.hostDraw s.drawCount ∧ t.draws = [] ∧ t.drawCount = s.drawCount + 1) ∧
      (∀ r, r ≠ 2 → t.reg r = s.reg r) ∧ t.pc = s.pc ∧ t.status = s.status ∧ t.out = s.out ∧
      SameMemory s t ∧ SameSpecials s t

/-- R185: service 10 ends the run in `Halted` with all 32 bits of register 4, and no further step is taken.
The full code and the terminal status are decisions D15 and D24 of the spec (log 8). -/
def Obligations.ExitHaltsWithFullCode : Prop :=
  ∀ (rt rs : RegIdx) (imm : Imm16) (s : State), s.reg 2 = 10 →
    ∃ t, exec (.syscall rt rs imm) s = .next t ∧ OnlyStatus s t (.halted (s.reg 4)) ∧
      step t = .fault (.halted (s.reg 4))

/-- R186: service 11 appends the low byte of register 4.
The width of the service code and the ignored bits are decisions D16 and D3 of the spec (log 8). -/
def Obligations.PrintCharAppendsLowByte : Prop :=
  ∀ (rt rs : RegIdx) (imm : Imm16) (s : State), s.reg 2 = 11 →
    ∃ (t : State) (b : Byte), exec (.syscall rt rs imm) s = .next t ∧ b.toNat = (s.reg 4).toNat % 256 ∧
      OnlyOutput s t [b]

/-- R187: services 8, 9 and 12 change nothing.
The width of the service code and the ignored bits are decisions D16 and D3 of the spec (log 8). -/
def Obligations.NoEffectServicesChangeNothing : Prop :=
  ∀ (rt rs : RegIdx) (imm : Imm16) (s : State), s.reg 2 = 8 ∨ s.reg 2 = 9 ∨ s.reg 2 = 12 →
    exec (.syscall rt rs imm) s = .next s

/-- R188, R180: every other code, compared on all 32 bits, raises `UnknownSyscall(x[2])`; every word with opcode
0x0C is a syscall, whatever its other bits.
The width of the comparison and the ignored bits are decisions D16 and D3 of the spec (log 8). -/
def Obligations.UnknownServiceFaults : Prop :=
  (∀ w, opcodeOf w = 0x0C → decode w = .ok (.syscall (rtOf w) (rsOf w) (immOf w))) ∧
  ∀ (rt rs : RegIdx) (imm : Imm16) (s : State), (s.reg 2).toNat ∉ [1, 4, 5, 8, 9, 10, 11, 12] →
    ∃ t, exec (.syscall rt rs imm) s = .next t ∧ OnlyStatus s t (.faulted (.unknownSyscall (s.reg 2)))

/-! ### Memory -/

/-- R43: an access fails its bounds check exactly when it reaches past the top of the address space: never for a
byte, only at 0xFFFFFFFF for a halfword, only at the last three addresses for a word. -/
def Obligations.BoundsFaultsExactlyAtTheTop : Prop :=
  ∀ (p : Params) (m : Memory) (access : Access) (a v : Word),
    (memRead p m access a .byte ≠ .error (.memBounds a 1 access)) ∧
    (memWrite p m a .byte v ≠ .error (.memBounds a 1 .store)) ∧
    (memRead p m access a .halfword = .error (.memBounds a 2 access) ↔ a = 0xFFFFFFFF) ∧
    (memWrite p m a .halfword v = .error (.memBounds a 2 .store) ↔ a = 0xFFFFFFFF) ∧
    (memRead p m access a .word = .error (.memBounds a 4 access) ↔
      a = 0xFFFFFFFD ∨ a = 0xFFFFFFFE ∨ a = 0xFFFFFFFF) ∧
    (memWrite p m a .word v = .error (.memBounds a 4 .store) ↔
      a = 0xFFFFFFFD ∨ a = 0xFFFFFFFE ∨ a = 0xFFFFFFFF)

/-- R44: MemRead of 1, 2 or 4 bytes, for a fetch or a load: the big-endian value of the bytes, or the fault of
the check that fails. -/
def Obligations.MemReadIsBigEndian : Prop :=
  ∀ (p : Params) (m : Memory) (access : Access) (a : Word) (n : Width), access = .fetch ∨ access = .load →
    (InSpace a n.bytes → ReadAllowed p a n.bytes →
      ∃ v, memRead p m access a n = .ok v ∧ v.toNat = bigEndian m a.toNat n.bytes) ∧
    (¬ InSpace a n.bytes → memRead p m access a n = .error (.memBounds a n.bytes access)) ∧
    (InSpace a n.bytes → ¬ ReadAllowed p a n.bytes →
      memRead p m access a n = .error (.memRegion a n.bytes access))

/-- R45: MemWrite stores the low 8n bits of the value, big-endian, and no other byte; when a check fails no byte
is written and the result is its fault. For a region fault of a store of 1 or 2 bytes the size is the
model's choice (log 6). Premise: memory is canonical. -/
def Obligations.MemWriteStoresLowBytes : Prop :=
  ∀ (p : Params) (m : Memory) (a v : Word) (n : Width), m.wf = true →
    (InSpace a n.bytes → StoreAllowed p a n.bytes →
      ∃ m', memWrite p m a n v = .ok m' ∧ bigEndian m' a.toNat n.bytes = v.toNat % 256 ^ n.bytes ∧
        (∀ b, b < a.toNat ∨ a.toNat + n.bytes ≤ b → m'.read b = m.read b) ∧ m'.wf = true) ∧
    (¬ InSpace a n.bytes → memWrite p m a n v = .error (.memBounds a n.bytes .store)) ∧
    (InSpace a n.bytes → ¬ StoreAllowed p a n.bytes → memWrite p m a n v = .error (.memRegion a n.bytes .store))

/-- R46: after a word is written at `a`, reading the word gives it back, its first and last bytes are its top and
low bytes, and a word read at `a + 1` sees the shared bytes. Premise: memory is canonical. -/
def Obligations.WordWriteIsReadBack : Prop :=
  ∀ (p : Params) (m m' : Memory) (a w : Word), m.wf = true → memWrite p m a .word w = .ok m' →
    memRead p m' .load a .word = .ok w ∧
    (∃ b, readByte p m' a = .ok b ∧ b.toNat = w.toNat / 2 ^ 24) ∧
    (∃ b, readByte p m' (a + 3) = .ok b ∧ b.toNat = w.toNat % 256) ∧
    (a.toNat + 5 ≤ 2 ^ 32 → ∃ v, memRead p m' .load (a + 1) .word = .ok v ∧
      v.toNat = w.toNat % 2 ^ 24 * 256 + (m.read (a.toNat + 4)).toNat)

/-- R48: MemReadString answers exactly the bytes before the first zero, or `MemBounds(a, 2^32 - a, StringRead)`
when there is none up to the top of memory.
The cap is decision D14 of the spec (log 8). -/
def Obligations.StringReadStopsAtFirstZero : Prop :=
  ∀ (p : Params) (m : Memory) (a : Word), ReadAllowed p a 1 →
    (∀ bytes, memReadString p m a = .ok bytes ↔ StringAt m a.toNat bytes) ∧
    (memReadString p m a = .error (.memBounds a (2 ^ 32 - a.toNat) .stringRead) ↔ NoZeroFrom m a.toNat)

/-- R52, R53: the region checks refuse exactly the accesses they name: with RESERVED_LOW_FAULTS every access that
touches a byte below TEXT_OFFSET, with TEXT_READ_ONLY every store that touches the text region.
The two parameters are decisions D9 and D10 of the spec (log 8); for a string see log 6. -/
def Obligations.RegionChecksRefuseExactlyTheirAccesses : Prop :=
  ∀ (p : Params) (m : Memory) (access : Access) (a v : Word), InSpace a 4 →
    (access = .fetch ∨ access = .load → (memRead p m access a .word = .error (.memRegion a 4 access) ↔
      p.reservedLowFaults = true ∧ TouchesReserved a 4)) ∧
    (memWrite p m a .word v = .error (.memRegion a 4 .store) ↔
      (p.reservedLowFaults = true ∧ TouchesReserved a 4) ∨ (p.textReadOnly = true ∧ TouchesText a 4)) ∧
    ((∃ n, memReadString p m a = .error (.memRegion a n .stringRead)) ↔
      p.reservedLowFaults = true ∧ a.toNat < 0x00400000)

/-- R58: a word that `sw` has stored is what the next fetch of its address reads, with nothing in between.
Premise: memory is canonical.
The spec marks this rule as derived. -/
def Obligations.StoreIsSeenByTheNextFetch : Prop :=
  ∀ (rt rs : RegIdx) (imm : Imm16) (s t : State), s.mem.wf = true → exec (.sw rt rs imm) s = .next t →
    t.status = .running →
    Fetches { t with pc := s.reg rt } (s.reg rs + BitVec.ofInt 32 imm.toInt)

/-! ### Reset and launch -/

/-- R230, R231: a CPU reset sets every register, `pc`, `hi` and `lo` to 0, the status to `Running` and the output
to nothing, and leaves memory; after construction every byte of memory is 0.
The status and the output are decision D24 of the spec (log 8). -/
def Obligations.ResetValues : Prop :=
  (∀ s : State, (∀ r, s.cpuReset.reg r = 0) ∧ s.cpuReset.pc = 0 ∧ s.cpuReset.hi = 0 ∧ s.cpuReset.lo = 0 ∧
    s.cpuReset.status = .running ∧ s.cpuReset.out = [] ∧ s.cpuReset.mem = s.mem) ∧
  State.reset = State.reset.cpuReset ∧ ∀ a, State.reset.mem.read a = 0

/-- R232, R234: the launch state: registers zero, `pc` at ENTRY_PC, `Running`, no output, memory equal to the image
and zero elsewhere; and it meets the invariant.
The entry pc, the status and the output rest on decisions D17 and D24 of the spec (log 8). Where blocks overlap,
that the last one wins is the model's choice (log 10). -/
def Obligations.LaunchPlacesTheImage : Prop :=
  ∀ (p : Params) (image : LaunchImage), image.wf = true →
    (∀ r, (launch p image).reg r = 0) ∧ (launch p image).pc = p.entryPc ∧ (launch p image).hi = 0 ∧
    (launch p image).lo = 0 ∧ (launch p image).status = .running ∧ (launch p image).out = [] ∧
    (launch p image).params = p ∧ (∀ a, (launch p image).mem.read a = imageByte image a) ∧ (launch p image).Inv

/-- R235, R233, R99: the object file of `n` words is 20 + 4n bytes long, and the loader puts word `k` at
0x00400000 + 4k, where a step with `pc` there fetches it.
The header order is decision D19 of the spec, and the spec marks R235 as derived (log 8). -/
def Obligations.SavedProgramLoadsAtTextOffset : Prop :=
  ∀ (p : Params) (words : List Word), 0x00400000 + 4 * words.length ≤ 2 ^ 32 →
    (saveObject p.headerLittleEndian (Assembler.emittedBytes words)).length = 8 + 12 + 4 * words.length ∧
    ∃ s, launchObject p (saveObject p.headerLittleEndian (Assembler.emittedBytes words)) = .ok s ∧
      ∀ k (h : k < words.length),
        Fetches { s with pc := BitVec.ofNat 32 (0x00400000 + 4 * k) } words[k]

/-- R233: a file whose first four bytes are not `MIPS` or whose version is not 1 fails with a format error, and no
run starts; the endianness and pad bytes are ignored.
R233 gives the `if` half. That no other file is a format error (a short file, an unknown segment and a payload
past the top have errors of their own) is the model's choice (log 10). -/
def Obligations.BadHeaderIsAFormatError : Prop :=
  ∀ (p : Params) (m0 m1 m2 m3 endianness version count pad : Byte) (rest : List Byte),
    (launchObject p (m0 :: m1 :: m2 :: m3 :: endianness :: version :: count :: pad :: rest) = .error .format ↔
      ¬ ([m0, m1, m2, m3] = [0x4D, 0x49, 0x50, 0x53] ∧ version = 1)) ∧
    ∀ e' pad', launchObject p (m0 :: m1 :: m2 :: m3 :: e' :: version :: count :: pad' :: rest) =
      launchObject p (m0 :: m1 :: m2 :: m3 :: endianness :: version :: count :: pad :: rest)

/-! ### The assembler -/

/-- R95, R96: an R-table mnemonic with three register tokens `$tD`, in the order `rd, rs, rt`, assembles to the
packed word with `shamt` 0; any other number of arguments is an error.
Which error is reported is the model's choice (log 15). -/
def Obligations.AssemblerPacksRTypeStatements : Prop :=
  ∀ e ∈ [("add", 0x20), ("sub", 0x22), ("and", 0x24), ("or", 0x25), ("syscall", 0x0C)],
    (∀ d s t : Nat, d < 10 → s < 10 → t < 10 →
      Assembler.assembleStatement ⟨e.1.toList, [regToken d, regToken s, regToken t]⟩ =
        .ok (createR ⟨0, s, t, d, 0, e.2⟩)) ∧
    ∀ args, args.length ≠ 3 →
      Assembler.assembleStatement ⟨e.1.toList, args⟩ = .error .wrongArgumentCount

/-- R93, R95, R97, R98: an I-table mnemonic with `rt, rs, imm` assembles to the packed word with the immediate
masked to 16 bits, or is out of range; a J-table mnemonic with an address below 2^26 to its packed word.
That `nori` is accepted (R94 writes `xori`) is the model's choice (log 12), and so is which error is reported
(log 15). -/
def Obligations.AssemblerPacksIAndJTypeStatements : Prop :=
  (∀ e ∈ [("addi", 0x08), ("addiu", 0x09), ("andi", 0x0C), ("beq", 0x04), ("bne", 0x05), ("bgtz", 0x07),
      ("lui", 0x0F), ("ori", 0x0D), ("nori", 0x0E), ("slti", 0x0A), ("lw", 0x23), ("sw", 0x2B)],
    ∀ (t s : Nat) (tok : List Char) (v : Int), t < 10 → s < 10 → Assembler.readImmediate tok = some v →
      Assembler.assembleStatement ⟨e.1.toList, [regToken t, regToken s, tok]⟩ =
        if -32768 ≤ v ∧ v ≤ 32767 then .ok (createI ⟨e.2, s, t, (v % 65536).toNat⟩)
        else .error .immediateOutOfRange) ∧
  (∀ e ∈ [("j", 0x02), ("jal", 0x03)], ∀ (tok : List Char) (a : Nat), Assembler.readDecimal tok = some a →
    Assembler.assembleStatement ⟨e.1.toList, [tok]⟩ =
      if a < 2 ^ 26 then .ok (createJ ⟨e.2, a⟩) else .error .invalidAddress)

/-- R6: whatever values the assembler's tables give the mnemonics the core has no semantics for, and for `addi`,
`addiu` and the R-type `syscall` with their known values, every word it assembles for one ends the step
that fetches it in a fault.
That the words fault rests on decisions D1 and D2 of the spec (log 8); the missing values are free (log 11). -/
def Obligations.TableOnlyMnemonicsFault : Prop :=
  ∀ name ∈ Assembler.rTableUnvalued ++ Assembler.iTableUnvalued ++ ["addi".toList, "addiu".toList, "syscall".toList],
    ∀ (args : List (List Char)) (w : Word), Assembler.assembleStatement ⟨name, args⟩ = .ok w →
      ∀ s, Fetches s w → ∃ t f, step s = .next t ∧ t.status = .faulted f

/-! ### Sections -/

/-- R233, R10: the payload of a text or a data section is copied to TEXT_OFFSET or DATA_OFFSET plus the section's
offset, a sum modulo 2^32, and every other byte of memory stays zero. Premise: the payload does not run on past
the top of memory; what happens then is the model's choice (log 10).
The data base and the header order are decisions D18 and D19 of the spec (log 8). -/
def Obligations.SectionLoadsAtBasePlusOffset : Prop :=
  ∀ (p : Params) (endianness pad segment q1 q2 q3 o0 o1 o2 o3 z0 z1 z2 z3 : Byte) (payload : List Byte)
    (base start : Nat),
    (segment = 0 ∧ base = 0x00400000) ∨ (segment = 1 ∧ base = 0x10000000) →
    start = (base + headerValue p.headerLittleEndian o0 o1 o2 o3) % 2 ^ 32 →
    headerValue p.headerLittleEndian z0 z1 z2 z3 = payload.length → start + payload.length ≤ 2 ^ 32 →
    ∃ s, launchObject p ([0x4D, 0x49, 0x50, 0x53, endianness, 1, 1, pad, segment, q1, q2, q3, o0, o1, o2, o3,
        z0, z1, z2, z3] ++ payload) = .ok s ∧
      (∀ k (h : k < payload.length), s.mem.read (start + k) = payload[k]) ∧
      ∀ a, a < start ∨ start + payload.length ≤ a → s.mem.read a = 0

end
end

