-- ==== Sys2Proof/Laws/Codec.lean ====
section
/-! SUPPORT. The laws of the codec: fields and packed words as numbers, the fields of a packed word, and the bytes of a word. -/
namespace Sys2Proof

/-! ### Words as numbers -/

theorem toNat_append_eq {m n : Nat} (a : BitVec m) (b : BitVec n) :
    (a ++ b).toNat = a.toNat * 2 ^ n + b.toNat := by
  rw [BitVec.toNat_append, ← Nat.shiftLeft_add_eq_or_of_lt b.isLt, Nat.shiftLeft_eq]

theorem toNat_extract {n : Nat} (w : Word) (start : Nat) :
    (w.extractLsb' start n).toNat = w.toNat / 2 ^ start % 2 ^ n := by
  rw [BitVec.extractLsb'_toNat, Nat.shiftRight_eq_div_pow]

theorem packR_toNat (op : Code6) (rs rt rd : RegIdx) (shamt : Shamt) (funct : Code6) :
    (packR op rs rt rd shamt funct).toNat =
      op.toNat * 2 ^ 26 + rs.toNat * 2 ^ 21 + rt.toNat * 2 ^ 16 + rd.toNat * 2 ^ 11 + shamt.toNat * 2 ^ 6 +
        funct.toNat := by
  simp only [packR, toNat_append_eq]; omega

theorem packI_toNat (op : Code6) (rs rt : RegIdx) (imm : Imm16) :
    (packI op rs rt imm).toNat = op.toNat * 2 ^ 26 + rs.toNat * 2 ^ 21 + rt.toNat * 2 ^ 16 + imm.toNat := by
  simp only [packI, toNat_append_eq]; omega

theorem packJ_toNat (op : Code6) (target : Target26) :
    (packJ op target).toNat = op.toNat * 2 ^ 26 + target.toNat := by
  simp only [packJ, toNat_append_eq]

theorem wordOfBytes_toNat (b0 b1 b2 b3 : Byte) :
    (wordOfBytes b0 b1 b2 b3).toNat = b0.toNat * 2 ^ 24 + b1.toNat * 2 ^ 16 + b2.toNat * 2 ^ 8 + b3.toNat := by
  simp only [wordOfBytes, toNat_append_eq]; omega

theorem opcodeOf_toNat (w : Word) : (opcodeOf w).toNat = w.toNat / 2 ^ 26 := by
  rw [opcodeOf, toNat_extract]; omega
theorem rsOf_toNat (w : Word) : (rsOf w).toNat = w.toNat / 2 ^ 21 % 2 ^ 5 := toNat_extract w 21
theorem rtOf_toNat (w : Word) : (rtOf w).toNat = w.toNat / 2 ^ 16 % 2 ^ 5 := toNat_extract w 16
theorem rdOf_toNat (w : Word) : (rdOf w).toNat = w.toNat / 2 ^ 11 % 2 ^ 5 := toNat_extract w 11
theorem shamtOf_toNat (w : Word) : (shamtOf w).toNat = w.toNat / 2 ^ 6 % 2 ^ 5 := toNat_extract w 6
theorem functOf_toNat (w : Word) : (functOf w).toNat = w.toNat % 2 ^ 6 := by
  rw [functOf, toNat_extract]; omega
theorem immOf_toNat (w : Word) : (immOf w).toNat = w.toNat % 2 ^ 16 := by
  rw [immOf, toNat_extract]; omega
theorem targetOf_toNat (w : Word) : (targetOf w).toNat = w.toNat % 2 ^ 26 := by
  rw [targetOf, toNat_extract]; omega

/-! ### The fields of a packed word -/

section
variable (op : Code6) (rs rt rd : RegIdx) (shamt : Shamt) (funct : Code6) (imm : Imm16) (target : Target26)

@[simp] theorem opcodeOf_packR : opcodeOf (packR op rs rt rd shamt funct) = op :=
  BitVec.eq_of_toNat_eq (by rw [opcodeOf_toNat, packR_toNat]; omega)
@[simp] theorem rsOf_packR : rsOf (packR op rs rt rd shamt funct) = rs :=
  BitVec.eq_of_toNat_eq (by rw [rsOf_toNat, packR_toNat]; omega)
@[simp] theorem rtOf_packR : rtOf (packR op rs rt rd shamt funct) = rt :=
  BitVec.eq_of_toNat_eq (by rw [rtOf_toNat, packR_toNat]; omega)
@[simp] theorem rdOf_packR : rdOf (packR op rs rt rd shamt funct) = rd :=
  BitVec.eq_of_toNat_eq (by rw [rdOf_toNat, packR_toNat]; omega)
@[simp] theorem shamtOf_packR : shamtOf (packR op rs rt rd shamt funct) = shamt :=
  BitVec.eq_of_toNat_eq (by rw [shamtOf_toNat, packR_toNat]; omega)
@[simp] theorem functOf_packR : functOf (packR op rs rt rd shamt funct) = funct :=
  BitVec.eq_of_toNat_eq (by rw [functOf_toNat, packR_toNat]; omega)

@[simp] theorem opcodeOf_packI : opcodeOf (packI op rs rt imm) = op :=
  BitVec.eq_of_toNat_eq (by rw [opcodeOf_toNat, packI_toNat]; omega)
@[simp] theorem rsOf_packI : rsOf (packI op rs rt imm) = rs :=
  BitVec.eq_of_toNat_eq (by rw [rsOf_toNat, packI_toNat]; omega)
@[simp] theorem rtOf_packI : rtOf (packI op rs rt imm) = rt :=
  BitVec.eq_of_toNat_eq (by rw [rtOf_toNat, packI_toNat]; omega)
@[simp] theorem immOf_packI : immOf (packI op rs rt imm) = imm :=
  BitVec.eq_of_toNat_eq (by rw [immOf_toNat, packI_toNat]; omega)

@[simp] theorem opcodeOf_packJ : opcodeOf (packJ op target) = op :=
  BitVec.eq_of_toNat_eq (by rw [opcodeOf_toNat, packJ_toNat]; omega)
@[simp] theorem targetOf_packJ : targetOf (packJ op target) = target :=
  BitVec.eq_of_toNat_eq (by rw [targetOf_toNat, packJ_toNat]; omega)

end

/-! ### A word is the packing of its fields -/

theorem packR_fields (w : Word) :
    packR (opcodeOf w) (rsOf w) (rtOf w) (rdOf w) (shamtOf w) (functOf w) = w :=
  BitVec.eq_of_toNat_eq (by
    rw [packR_toNat, opcodeOf_toNat, rsOf_toNat, rtOf_toNat, rdOf_toNat, shamtOf_toNat, functOf_toNat]; omega)

theorem packI_fields (w : Word) : packI (opcodeOf w) (rsOf w) (rtOf w) (immOf w) = w :=
  BitVec.eq_of_toNat_eq (by rw [packI_toNat, opcodeOf_toNat, rsOf_toNat, rtOf_toNat, immOf_toNat]; omega)

theorem packJ_fields (w : Word) : packJ (opcodeOf w) (targetOf w) = w :=
  BitVec.eq_of_toNat_eq (by rw [packJ_toNat, opcodeOf_toNat, targetOf_toNat]; omega)

theorem packR_eq {w : Word} {op funct : Code6} (ho : opcodeOf w = op) (hf : functOf w = funct) :
    packR op (rsOf w) (rtOf w) (rdOf w) (shamtOf w) funct = w := by
  subst ho hf; exact packR_fields w

theorem packI_eq {w : Word} {op : Code6} (ho : opcodeOf w = op) :
    packI op (rsOf w) (rtOf w) (immOf w) = w := by
  subst ho; exact packI_fields w

theorem packJ_eq {w : Word} {op : Code6} (ho : opcodeOf w = op) : packJ op (targetOf w) = w := by
  subst ho; exact packJ_fields w

/-! ### The masks of the opcode table (R81) -/

/-- The mask of the R-type rows keeps the opcode and the funct. -/
theorem and_specialMask (w : Word) : w &&& 0xFC00003F = packR (opcodeOf w) 0 0 0 0 (functOf w) := by
  apply BitVec.eq_of_getLsbD_eq
  intro i hi
  simp only [packR, opcodeOf, functOf, BitVec.getLsbD_and, BitVec.getLsbD_append, BitVec.getLsbD_extractLsb']
  interval_cases i <;> simp

/-- The mask of the other rows keeps the opcode. -/
theorem and_primaryMask (w : Word) : w &&& 0xFC000000 = packI (opcodeOf w) 0 0 0 := by
  apply BitVec.eq_of_getLsbD_eq
  intro i hi
  simp only [packI, opcodeOf, BitVec.getLsbD_and, BitVec.getLsbD_append, BitVec.getLsbD_extractLsb']
  interval_cases i <;> simp

/-! ### The verdicts of the decoder (R78) -/

/-- What the decoder can answer for a word, with the opcode and funct that lead there. -/
inductive Verdict (w : Word) : Except IllegalWord Instr → Prop where
  | add (ho : opcodeOf w = 0x00) (hf : functOf w = 0x20) :
    Verdict w (.ok (.add (rdOf w) (rsOf w) (rtOf w) (shamtOf w)))
  | sub (ho : opcodeOf w = 0x00) (hf : functOf w = 0x22) :
    Verdict w (.ok (.sub (rdOf w) (rsOf w) (rtOf w) (shamtOf w)))
  | and (ho : opcodeOf w = 0x00) (hf : functOf w = 0x24) :
    Verdict w (.ok (.and (rdOf w) (rsOf w) (rtOf w) (shamtOf w)))
  | or (ho : opcodeOf w = 0x00) (hf : functOf w = 0x25) :
    Verdict w (.ok (.or (rdOf w) (rsOf w) (rtOf w) (shamtOf w)))
  | syscallRtype (ho : opcodeOf w = 0x00) (hf : functOf w = 0x0C) :
    Verdict w (.ok (.syscallRtype (rdOf w) (rsOf w) (rtOf w) (shamtOf w)))
  | syscall (ho : opcodeOf w = 0x0C) : Verdict w (.ok (.syscall (rtOf w) (rsOf w) (immOf w)))
  | lw (ho : opcodeOf w = 0x23) : Verdict w (.ok (.lw (rtOf w) (rsOf w) (immOf w)))
  | sw (ho : opcodeOf w = 0x2B) : Verdict w (.ok (.sw (rtOf w) (rsOf w) (immOf w)))
  | lui (ho : opcodeOf w = 0x0F) : Verdict w (.ok (.lui (rtOf w) (rsOf w) (immOf w)))
  | ori (ho : opcodeOf w = 0x0D) : Verdict w (.ok (.ori (rtOf w) (rsOf w) (immOf w)))
  | nori (ho : opcodeOf w = 0x0E) : Verdict w (.ok (.nori (rtOf w) (rsOf w) (immOf w)))
  | slti (ho : opcodeOf w = 0x0A) : Verdict w (.ok (.slti (rtOf w) (rsOf w) (immOf w)))
  | beq (ho : opcodeOf w = 0x04) : Verdict w (.ok (.beq (rtOf w) (rsOf w) (immOf w)))
  | bne (ho : opcodeOf w = 0x05) : Verdict w (.ok (.bne (rtOf w) (rsOf w) (immOf w)))
  | bgtz (ho : opcodeOf w = 0x07) : Verdict w (.ok (.bgtz (rtOf w) (rsOf w) (immOf w)))
  | addi (ho : opcodeOf w = 0x08) : Verdict w (.ok (.addi (rtOf w) (rsOf w) (immOf w)))
  | addiu (ho : opcodeOf w = 0x09) : Verdict w (.ok (.addiu (rtOf w) (rsOf w) (immOf w)))
  | j (ho : opcodeOf w = 0x02) : Verdict w (.ok (.j (targetOf w)))
  | jal (ho : opcodeOf w = 0x03) : Verdict w (.ok (.jal (targetOf w)))
  | unknownFunct (ho : opcodeOf w = 0x00) (hf : functOf w ∉ [0x20, 0x22, 0x24, 0x25, 0x0C]) :
    Verdict w (.error (.unknownFunct (functOf w)))
  | unknownOpcode (ho : opcodeOf w ∉ [0x00, 0x0C, 0x23, 0x2B, 0x0F, 0x0D, 0x0E, 0x0A, 0x04, 0x05, 0x07, 0x02, 0x03, 0x08, 0x09]) :
    Verdict w (.error (.unknownOpcode (opcodeOf w)))

theorem decodeSpecial_verdict {w : Word} (ho : opcodeOf w = 0x00) : Verdict w (decodeSpecial w) := by
  unfold decodeSpecial withR
  by_cases h0 : functOf w = 0x20
  · rw [if_pos h0]; exact .add ho h0
  rw [if_neg h0]
  by_cases h1 : functOf w = 0x22
  · rw [if_pos h1]; exact .sub ho h1
  rw [if_neg h1]
  by_cases h2 : functOf w = 0x24
  · rw [if_pos h2]; exact .and ho h2
  rw [if_neg h2]
  by_cases h3 : functOf w = 0x25
  · rw [if_pos h3]; exact .or ho h3
  rw [if_neg h3]
  by_cases h4 : functOf w = 0x0C
  · rw [if_pos h4]; exact .syscallRtype ho h4
  rw [if_neg h4]
  exact .unknownFunct ho (by simp_all)

/-- The verdict on every word: one lemma for every proof that asks what a word decodes to. -/
theorem decode_verdict (w : Word) : Verdict w (decode w) := by
  unfold decode withI withJ
  by_cases h : opcodeOf w = 0x00
  · rw [if_pos h]; exact decodeSpecial_verdict h
  rw [if_neg h]
  by_cases h0 : opcodeOf w = 0x0C
  · rw [if_pos h0]; exact .syscall h0
  rw [if_neg h0]
  by_cases h1 : opcodeOf w = 0x23
  · rw [if_pos h1]; exact .lw h1
  rw [if_neg h1]
  by_cases h2 : opcodeOf w = 0x2B
  · rw [if_pos h2]; exact .sw h2
  rw [if_neg h2]
  by_cases h3 : opcodeOf w = 0x0F
  · rw [if_pos h3]; exact .lui h3
  rw [if_neg h3]
  by_cases h4 : opcodeOf w = 0x0D
  · rw [if_pos h4]; exact .ori h4
  rw [if_neg h4]
  by_cases h5 : opcodeOf w = 0x0E
  · rw [if_pos h5]; exact .nori h5
  rw [if_neg h5]
  by_cases h6 : opcodeOf w = 0x0A
  · rw [if_pos h6]; exact .slti h6
  rw [if_neg h6]
  by_cases h7 : opcodeOf w = 0x04
  · rw [if_pos h7]; exact .beq h7
  rw [if_neg h7]
  by_cases h8 : opcodeOf w = 0x05
  · rw [if_pos h8]; exact .bne h8
  rw [if_neg h8]
  by_cases h9 : opcodeOf w = 0x07
  · rw [if_pos h9]; exact .bgtz h9
  rw [if_neg h9]
  by_cases h10 : opcodeOf w = 0x02
  · rw [if_pos h10]; exact .j h10
  rw [if_neg h10]
  by_cases h11 : opcodeOf w = 0x03
  · rw [if_pos h11]; exact .jal h11
  rw [if_neg h11]
  by_cases h12 : opcodeOf w = 0x08
  · rw [if_pos h12]; exact .addi h12
  rw [if_neg h12]
  by_cases h13 : opcodeOf w = 0x09
  · rw [if_pos h13]; exact .addiu h13
  rw [if_neg h13]
  exact .unknownOpcode (by simp only [List.mem_cons, List.not_mem_nil, or_false, not_or]; exact ⟨h, h0, h1, h2, h3, h4, h5, h6, h7, h8, h9, h10, h11, h12, h13⟩)

/-! ### Bytes of a word -/

/-- The bytes of a word give the word back (R41, R42). -/
theorem wordOfBytes_extract (w : Word) :
    wordOfBytes (w.extractLsb' 24 8) (w.extractLsb' 16 8) (w.extractLsb' 8 8) (w.extractLsb' 0 8) = w :=
  BitVec.eq_of_toNat_eq (by rw [wordOfBytes_toNat]; simp only [toNat_extract]; omega)

@[simp] theorem length_wordBytes (w : Word) : (wordBytes w).length = 4 := rfl

/-- The decoder reads the bytes of a word as the word (R42). -/
theorem decodeBytes_wordBytes (w : Word) (rest : List Byte) :
    decodeBytes (wordBytes w ++ rest) = some (decode w, rest) := by
  simp [wordBytes, decodeBytes, wordOfBytes_extract]

end Sys2Proof
end

