-- ==== Sys2Proof/Laws/Memory.lean ====
section
/-! SUPPORT. The laws of memory: read after write, the canonical form kept by every operation, equal reads make equal canonical memories, and the outcomes of the access primitives. -/
namespace Sys2Proof.Machine

/-! ### One byte -/

@[simp] theorem Memory.read_nil (a : Nat) : Memory.read [] a = 0 := rfl

theorem Memory.read_cons (k : Nat) (v : Byte) (rest : Memory) (a : Nat) :
    Memory.read ((k, v) :: rest) a = if k = a then v else Memory.read rest a := rfl

theorem Memory.wfFrom_cons {low k : Nat} {v : Byte} {rest : Memory} :
    Memory.wfFrom low ((k, v) :: rest) = true ↔
      low ≤ k ∧ k < maxMemory ∧ v ≠ 0 ∧ Memory.wfFrom (k + 1) rest = true := by
  simp [Memory.wfFrom, and_assoc]

theorem Memory.wfFrom_mono {low low' : Nat} {m : Memory} (h : low' ≤ low) (hm : Memory.wfFrom low m = true) :
    Memory.wfFrom low' m = true := by
  cases m with
  | nil => rfl
  | cons c rest =>
    rw [Memory.wfFrom_cons] at hm ⊢
    exact ⟨h.trans hm.1, hm.2⟩

/-- A canonical memory lists nothing below its lower bound. -/
theorem Memory.read_below {low : Nat} {m : Memory} (hm : Memory.wfFrom low m = true) {a : Nat} (h : a < low) :
    m.read a = 0 := by
  induction m generalizing low with
  | nil => rfl
  | cons c rest ih =>
    obtain ⟨hk, -, -, hrest⟩ := Memory.wfFrom_cons.mp hm
    rw [Memory.read_cons, if_neg (by omega)]
    exact ih hrest (by omega)

/-- A byte written is the byte read at its address. -/
theorem Memory.read_write_same {low : Nat} {m : Memory} (hm : Memory.wfFrom low m = true) (a : Nat) (b : Byte) :
    (m.write a b).read a = b := by
  induction m generalizing low with
  | nil => unfold Memory.write; split <;> simp_all [Memory.read_cons]
  | cons c rest ih =>
    obtain ⟨k, v⟩ := c
    obtain ⟨-, -, -, hrest⟩ := Memory.wfFrom_cons.mp hm
    unfold Memory.write
    split_ifs with h1 h2 h3 h3
    · rw [Memory.read_cons, if_neg (by omega)]; exact ih hrest
    · rw [h3]; exact Memory.read_below hrest (by omega)
    · simp [Memory.read_cons]
    · rw [Memory.read_cons, if_neg h2, h3]; exact Memory.read_below hrest (by omega)
    · simp [Memory.read_cons]

/-- A write leaves every other address alone, in any memory. -/
theorem Memory.read_write_other (m : Memory) {a c : Nat} (b : Byte) (h : c ≠ a) :
    (m.write a b).read c = m.read c := by
  induction m with
  | nil => unfold Memory.write; split <;> simp [Memory.read_cons, h.symm]
  | cons cell rest ih =>
    obtain ⟨k, v⟩ := cell
    unfold Memory.write
    split_ifs with h1 h2 h3 h3
    · simp only [Memory.read_cons, ih]
    · rw [Memory.read_cons, if_neg (by omega)]
    · rw [Memory.read_cons, Memory.read_cons, if_neg (by omega), if_neg (by omega)]
    · rfl
    · rw [Memory.read_cons, if_neg (by omega)]

theorem Memory.wfFrom_write {low : Nat} {m : Memory} (hm : Memory.wfFrom low m = true) {a : Nat} (b : Byte)
    (hlow : low ≤ a) (ha : a < maxMemory) : Memory.wfFrom low (m.write a b) = true := by
  induction m generalizing low with
  | nil => unfold Memory.write; split <;> simp_all [Memory.wfFrom]
  | cons cell rest ih =>
    obtain ⟨k, v⟩ := cell
    obtain ⟨hk, hmax, hv, hrest⟩ := Memory.wfFrom_cons.mp hm
    unfold Memory.write
    split_ifs with h1 h2 h3 h3
    · exact Memory.wfFrom_cons.mpr ⟨hk, hmax, hv, ih hrest (by omega)⟩
    · exact Memory.wfFrom_mono (by omega) hrest
    · exact Memory.wfFrom_cons.mpr ⟨hlow, ha, h3, by rwa [← h2]⟩
    · exact Memory.wfFrom_cons.mpr ⟨hk, hmax, hv, hrest⟩
    · exact Memory.wfFrom_cons.mpr ⟨hlow, ha, h3, Memory.wfFrom_cons.mpr ⟨by omega, hmax, hv, hrest⟩⟩

/-- Writing a byte keeps the canonical form. -/
theorem Memory.wf_write {m : Memory} (hm : m.wf = true) {a : Nat} (b : Byte) (ha : a < maxMemory) :
    (m.write a b).wf = true := Memory.wfFrom_write hm b (Nat.zero_le a) ha

theorem Memory.ext_from {low : Nat} {m n : Memory} (hm : Memory.wfFrom low m = true)
    (hn : Memory.wfFrom low n = true) (h : ∀ a, m.read a = n.read a) : m = n := by
  induction m generalizing low n with
  | nil =>
    cases n with
    | nil => rfl
    | cons c rest =>
      obtain ⟨k, v⟩ := c
      obtain ⟨-, -, hv, -⟩ := Memory.wfFrom_cons.mp hn
      have := h k
      simp [Memory.read_cons] at this
      exact absurd this.symm hv
  | cons c rest ih =>
    obtain ⟨k, v⟩ := c
    obtain ⟨hk, -, hv, hrest⟩ := Memory.wfFrom_cons.mp hm
    cases n with
    | nil =>
      have := h k
      simp [Memory.read_cons] at this
      exact absurd this hv
    | cons c' rest' =>
      obtain ⟨k', v'⟩ := c'
      obtain ⟨hk', -, hv', hrest'⟩ := Memory.wfFrom_cons.mp hn
      have hkk : k = k' := by
        rcases Nat.lt_trichotomy k k' with hlt | heq | hgt
        · have := h k
          rw [Memory.read_cons, if_pos rfl, Memory.read_cons, if_neg (by omega),
            Memory.read_below hrest' (by omega)] at this
          exact absurd this hv
        · exact heq
        · have := h k'
          rw [Memory.read_cons, if_neg (by omega), Memory.read_below hrest (by omega), Memory.read_cons,
            if_pos rfl] at this
          exact absurd this.symm hv'
      subst hkk
      have hvv : v = v' := by simpa [Memory.read_cons] using h k
      subst hvv
      refine congrArg _ (ih hrest hrest' fun a => ?_)
      by_cases ha : k = a
      · rw [Memory.read_below hrest (by omega), Memory.read_below hrest' (by omega)]
      · simpa [Memory.read_cons, ha] using h a

/-! ### Runs of bytes -/

/-- What memory reads after consecutive bytes are written. -/
theorem Memory.read_writeBytes {m : Memory} (hm : m.wf = true) (a : Nat) (bytes : List Byte)
    (hb : a + bytes.length ≤ maxMemory) (c : Nat) :
    (m.writeBytes a bytes).read c = if h : a ≤ c ∧ c < a + bytes.length then bytes[c - a] else m.read c := by
  induction bytes generalizing m a with
  | nil => simp [Memory.writeBytes]
  | cons b rest ih =>
    simp only [List.length_cons] at hb
    rw [Memory.writeBytes, ih (Memory.wf_write hm b (by omega)) (a + 1) (by omega)]
    by_cases hc : a + 1 ≤ c ∧ c < a + 1 + rest.length
    · have h2 : a ≤ c ∧ c < a + (b :: rest).length := by simp; omega
      have h3 : c - a = c - (a + 1) + 1 := by omega
      rw [dif_pos hc, dif_pos h2]
      simp [h3]
    · rw [dif_neg hc]
      by_cases hca : c = a
      · subst hca
        rw [dif_pos ⟨Nat.le_refl _, by simp⟩, Memory.read_write_same hm]; simp
      · rw [dif_neg (by simp; omega), Memory.read_write_other m b hca]

/-- Bytes outside those written read as before, in any memory. -/
theorem Memory.read_writeBytes_outside (m : Memory) (a : Nat) (bytes : List Byte) {c : Nat}
    (h : c < a ∨ a + bytes.length ≤ c) : (m.writeBytes a bytes).read c = m.read c := by
  induction bytes generalizing m a with
  | nil => rfl
  | cons b rest ih =>
    simp only [List.length_cons] at h
    rw [Memory.writeBytes, ih _ _ (by omega), Memory.read_write_other m b (by omega)]

/-- Writing bytes inside the address space keeps the canonical form. -/
theorem Memory.wf_writeBytes {m : Memory} (hm : m.wf = true) (a : Nat) (bytes : List Byte)
    (hb : a + bytes.length ≤ maxMemory) : (m.writeBytes a bytes).wf = true := by
  induction bytes generalizing m a with
  | nil => exact hm
  | cons b rest ih =>
    simp only [List.length_cons] at hb
    exact ih (Memory.wf_write hm b (by omega)) (a + 1) (by omega)

/-- A store writes as many bytes as its width. -/
@[simp] theorem length_bytesToStore (v : Word) (n : Width) : (bytesToStore v n).length = n.bytes := by
  cases n <;> rfl

/-! ### Checks and primitives -/

/-- An access passes every check (R43, R52, R53). -/
structure Allowed (p : Params) (access : Access) (a : Word) (n : Nat) : Prop where
  bounds : a.toNat + n ≤ maxMemory
  aboveReserved : p.reservedLowFaults = true → textOffset ≤ a.toNat
  outsideText : access = .store → p.textReadOnly = true → dataOffset ≤ a.toNat ∨ a.toNat + n ≤ textOffset

/-- No fault exactly when every check passes. -/
theorem accessFault_eq_none {p : Params} {access : Access} {a : Word} {n : Nat} :
    accessFault p access a n = none ↔ Allowed p access a n := by
  unfold accessFault inBounds touchesReserved storesToText
  constructor
  · intro h
    split_ifs at h with h1 h2
    simp only [decide_eq_true_eq] at h1
    simp only [Bool.or_eq_true, Bool.and_eq_true, decide_eq_true_eq, not_or, not_and] at h2
    exact ⟨h1, fun hr => by have := h2.1 hr; omega, fun hs ht => by have := h2.2; simp_all; omega⟩
  · rintro ⟨h1, h2, h3⟩
    rw [if_pos (by simpa using h1), if_neg]
    simp only [Bool.or_eq_true, Bool.and_eq_true, decide_eq_true_eq, not_or, not_and]
    refine ⟨fun hr => by have := h2 hr; omega, fun hs => ?_⟩
    rcases hs with ⟨⟨hs1, hs2⟩, hs3⟩
    have := h3 hs2 hs1
    omega

/-- Which fault a refused access raises. -/
theorem accessFault_eq_some {p : Params} {access : Access} {a : Word} {n : Nat} {f : CoreFault}
    (h : accessFault p access a n = some f) :
    (maxMemory < a.toNat + n ∧ f = .memBounds a n access) ∨
      (a.toNat + n ≤ maxMemory ∧ ¬ Allowed p access a n ∧ f = .memRegion a n access) := by
  have hn : ¬ Allowed p access a n := fun ha => by simp [accessFault_eq_none.mpr ha] at h
  unfold accessFault inBounds at h
  split_ifs at h with h1 h2
  · simp only [decide_eq_true_eq] at h1
    exact .inr ⟨h1, hn, by simpa using h.symm⟩
  · simp only [decide_eq_true_eq, Nat.not_le] at h1
    exact .inl ⟨h1, by simpa using h.symm⟩

theorem accessFault_of_outside {p : Params} {access : Access} {a : Word} {n : Nat}
    (h : maxMemory < a.toNat + n) : accessFault p access a n = some (.memBounds a n access) := by
  unfold accessFault inBounds
  rw [if_neg (by simpa using h)]

theorem accessFault_of_region {p : Params} {access : Access} {a : Word} {n : Nat}
    (hb : a.toNat + n ≤ maxMemory) (h : ¬ Allowed p access a n) :
    accessFault p access a n = some (.memRegion a n access) := by
  cases hf : accessFault p access a n with
  | none => exact absurd (accessFault_eq_none.mp hf) h
  | some f =>
    rcases accessFault_eq_some hf with ⟨h1, -⟩ | ⟨-, -, rfl⟩
    · omega
    · rfl

/-- An allowed read answers the bytes there. -/
theorem memRead_of_allowed {p : Params} {m : Memory} {access : Access} {a : Word} {n : Width}
    (h : Allowed p access a n.bytes) : memRead p m access a n = .ok (m.readWide a.toNat n) := by
  simp [memRead, accessFault_eq_none.mpr h]

/-- A read that is not allowed answers the fault of the check. -/
theorem memRead_of_fault {p : Params} {m : Memory} {access : Access} {a : Word} {n : Width} {f : CoreFault}
    (h : accessFault p access a n.bytes = some f) : memRead p m access a n = .error f := by
  simp [memRead, h]

/-- Everything a read that succeeds says. -/
theorem memRead_ok {p : Params} {m : Memory} {access : Access} {a : Word} {n : Width} {v : Word}
    (h : memRead p m access a n = .ok v) : Allowed p access a n.bytes ∧ v = m.readWide a.toNat n := by
  unfold memRead at h
  split at h
  · cases h
  · next hf => exact ⟨accessFault_eq_none.mp hf, by simpa using h.symm⟩

/-- Everything a read that faults says. -/
theorem memRead_error {p : Params} {m : Memory} {access : Access} {a : Word} {n : Width} {f : CoreFault}
    (h : memRead p m access a n = .error f) : accessFault p access a n.bytes = some f := by
  unfold memRead at h
  split at h
  · next hf => cases h; exact hf
  · cases h

/-- An allowed write stores its bytes. -/
theorem memWrite_of_allowed {p : Params} {m : Memory} {a : Word} {n : Width} {v : Word}
    (h : Allowed p .store a n.bytes) : memWrite p m a n v = .ok (m.writeBytes a.toNat (bytesToStore v n)) := by
  simp [memWrite, accessFault_eq_none.mpr h]

/-- A write that is not allowed answers the fault of the check. -/
theorem memWrite_of_fault {p : Params} {m : Memory} {a : Word} {n : Width} {v : Word} {f : CoreFault}
    (h : accessFault p .store a n.bytes = some f) : memWrite p m a n v = .error f := by
  simp [memWrite, h]

/-- Everything a write that succeeds says. -/
theorem memWrite_ok {p : Params} {m m' : Memory} {a : Word} {n : Width} {v : Word}
    (h : memWrite p m a n v = .ok m') :
    Allowed p .store a n.bytes ∧ m' = m.writeBytes a.toNat (bytesToStore v n) := by
  unfold memWrite at h
  split at h
  · cases h
  · next hf => exact ⟨accessFault_eq_none.mp hf, by simpa using h.symm⟩

/-- Everything a write that faults says. -/
theorem memWrite_error {p : Params} {m : Memory} {a : Word} {n : Width} {v : Word} {f : CoreFault}
    (h : memWrite p m a n v = .error f) : accessFault p .store a n.bytes = some f := by
  unfold memWrite at h
  split at h
  · next hf => cases h; exact hf
  · cases h

/-- A write that succeeds keeps the canonical form. -/
theorem memWrite_wf {p : Params} {m m' : Memory} {a : Word} {n : Width} {v : Word} (hm : m.wf = true)
    (h : memWrite p m a n v = .ok m') : m'.wf = true := by
  obtain ⟨ha, rfl⟩ := memWrite_ok h
  exact Memory.wf_writeBytes hm _ _ (by simpa using ha.bounds)

/-! ### Strings (R48) -/

/-- The string loop finds exactly the bytes before the first zero. -/
theorem Memory.stringFrom_eq_some (m : Memory) (count a : Nat) (bytes : List Byte) :
    m.stringFrom count a = some bytes ↔
      bytes.length < count ∧ (∀ k (h : k < bytes.length), m.read (a + k) = bytes[k] ∧ bytes[k] ≠ 0) ∧
        m.read (a + bytes.length) = 0 := by
  induction count generalizing a bytes with
  | zero => simp [Memory.stringFrom]
  | succ count ih =>
    unfold Memory.stringFrom
    split
    case isTrue h0 =>
      constructor
      · intro h
        cases Option.some.inj h
        simpa using h0
      · rintro ⟨-, hall, -⟩
        cases bytes with
        | nil => rfl
        | cons b rest =>
          obtain ⟨h1, h2⟩ := hall 0 (by simp)
          simp only [Nat.add_zero, List.getElem_cons_zero] at h1 h2
          exact absurd (h1.symm.trans h0) h2
    case isFalse h0 =>
      constructor
      · intro h
        obtain ⟨rest, hrest, rfl⟩ := Option.map_eq_some_iff.mp h
        obtain ⟨hlen, hall, hz⟩ := (ih (a + 1) rest).mp hrest
        refine ⟨by simpa using hlen, ?_, by rw [List.length_cons, show a + (rest.length + 1) = a + 1 + rest.length by omega]; exact hz⟩
        intro k hk
        cases k with
        | zero => simpa using h0
        | succ k =>
          have := hall k (by simpa using hk)
          rw [show a + (k + 1) = a + 1 + k by omega]
          simpa using this
      · rintro ⟨hlen, hall, hz⟩
        cases bytes with
        | nil => exact absurd (by simpa using hz) h0
        | cons b rest =>
          have hb := (hall 0 (by simp)).1
          simp only [Nat.add_zero, List.getElem_cons_zero] at hb
          have hrest : m.stringFrom count (a + 1) = some rest := by
            refine (ih (a + 1) rest).mpr ⟨by simpa using hlen, fun k hk => ?_, ?_⟩
            · have := hall (k + 1) (by simpa using hk)
              rw [show a + 1 + k = a + (k + 1) by omega]
              simpa using this
            · rw [show a + 1 + rest.length = a + (b :: rest).length by simp; omega]
              exact hz
          rw [hrest, hb]
          rfl

/-- The string loop fails exactly when none of the addresses it looks at holds zero. -/
theorem Memory.stringFrom_eq_none (m : Memory) (count a : Nat) :
    m.stringFrom count a = none ↔ ∀ k, k < count → m.read (a + k) ≠ 0 := by
  induction count generalizing a with
  | zero => simp [Memory.stringFrom]
  | succ count ih =>
    unfold Memory.stringFrom
    split
    case isTrue h0 => simp; exact ⟨0, by omega, h0⟩
    case isFalse h0 =>
      rw [Option.map_eq_none_iff, ih]
      constructor
      · intro h k hk
        cases k with
        | zero => exact h0
        | succ k => have := h k (by omega); rwa [Nat.add_assoc, Nat.add_comm 1 k] at this
      · intro h k hk
        have := h (k + 1) (by omega)
        rwa [Nat.add_assoc, Nat.add_comm 1 k]

end Sys2Proof.Machine
end

