-- ==== Sys2Proof/Laws/State.lean ====
section
/-! SUPPORT. One lemma per field of `State` and update of `Machine/Ops.lean`, so that no later proof unfolds a record update; and the laws of the register accessors. -/
namespace Sys2Proof.Machine

/-! ### `State.setPc` -/

@[simp] theorem State.setPc_x (s : State) (v : Word) : (s.setPc v).x = s.x := rfl
@[simp] theorem State.setPc_pc (s : State) (v : Word) : (s.setPc v).pc = v := rfl
@[simp] theorem State.setPc_hi (s : State) (v : Word) : (s.setPc v).hi = s.hi := rfl
@[simp] theorem State.setPc_lo (s : State) (v : Word) : (s.setPc v).lo = s.lo := rfl
@[simp] theorem State.setPc_mem (s : State) (v : Word) : (s.setPc v).mem = s.mem := rfl
@[simp] theorem State.setPc_status (s : State) (v : Word) : (s.setPc v).status = s.status := rfl
@[simp] theorem State.setPc_out (s : State) (v : Word) : (s.setPc v).out = s.out := rfl
@[simp] theorem State.setPc_params (s : State) (v : Word) : (s.setPc v).params = s.params := rfl
@[simp] theorem State.setPc_draws (s : State) (v : Word) : (s.setPc v).draws = s.draws := rfl
@[simp] theorem State.setPc_drawCount (s : State) (v : Word) : (s.setPc v).drawCount = s.drawCount := rfl

/-! ### `State.advancePc` -/

@[simp] theorem State.advancePc_x (s : State) : (s.advancePc).x = s.x := rfl
@[simp] theorem State.advancePc_pc (s : State) : (s.advancePc).pc = s.pc + 4 := rfl
@[simp] theorem State.advancePc_hi (s : State) : (s.advancePc).hi = s.hi := rfl
@[simp] theorem State.advancePc_lo (s : State) : (s.advancePc).lo = s.lo := rfl
@[simp] theorem State.advancePc_mem (s : State) : (s.advancePc).mem = s.mem := rfl
@[simp] theorem State.advancePc_status (s : State) : (s.advancePc).status = s.status := rfl
@[simp] theorem State.advancePc_out (s : State) : (s.advancePc).out = s.out := rfl
@[simp] theorem State.advancePc_params (s : State) : (s.advancePc).params = s.params := rfl
@[simp] theorem State.advancePc_draws (s : State) : (s.advancePc).draws = s.draws := rfl
@[simp] theorem State.advancePc_drawCount (s : State) : (s.advancePc).drawCount = s.drawCount := rfl

/-! ### `State.setMem` -/

@[simp] theorem State.setMem_x (s : State) (m : Memory) : (s.setMem m).x = s.x := rfl
@[simp] theorem State.setMem_pc (s : State) (m : Memory) : (s.setMem m).pc = s.pc := rfl
@[simp] theorem State.setMem_hi (s : State) (m : Memory) : (s.setMem m).hi = s.hi := rfl
@[simp] theorem State.setMem_lo (s : State) (m : Memory) : (s.setMem m).lo = s.lo := rfl
@[simp] theorem State.setMem_mem (s : State) (m : Memory) : (s.setMem m).mem = m := rfl
@[simp] theorem State.setMem_status (s : State) (m : Memory) : (s.setMem m).status = s.status := rfl
@[simp] theorem State.setMem_out (s : State) (m : Memory) : (s.setMem m).out = s.out := rfl
@[simp] theorem State.setMem_params (s : State) (m : Memory) : (s.setMem m).params = s.params := rfl
@[simp] theorem State.setMem_draws (s : State) (m : Memory) : (s.setMem m).draws = s.draws := rfl
@[simp] theorem State.setMem_drawCount (s : State) (m : Memory) : (s.setMem m).drawCount = s.drawCount := rfl

/-! ### `State.setStatus` -/

@[simp] theorem State.setStatus_x (s : State) (st : RunStatus) : (s.setStatus st).x = s.x := rfl
@[simp] theorem State.setStatus_pc (s : State) (st : RunStatus) : (s.setStatus st).pc = s.pc := rfl
@[simp] theorem State.setStatus_hi (s : State) (st : RunStatus) : (s.setStatus st).hi = s.hi := rfl
@[simp] theorem State.setStatus_lo (s : State) (st : RunStatus) : (s.setStatus st).lo = s.lo := rfl
@[simp] theorem State.setStatus_mem (s : State) (st : RunStatus) : (s.setStatus st).mem = s.mem := rfl
@[simp] theorem State.setStatus_status (s : State) (st : RunStatus) : (s.setStatus st).status = st := rfl
@[simp] theorem State.setStatus_out (s : State) (st : RunStatus) : (s.setStatus st).out = s.out := rfl
@[simp] theorem State.setStatus_params (s : State) (st : RunStatus) : (s.setStatus st).params = s.params := rfl
@[simp] theorem State.setStatus_draws (s : State) (st : RunStatus) : (s.setStatus st).draws = s.draws := rfl
@[simp] theorem State.setStatus_drawCount (s : State) (st : RunStatus) : (s.setStatus st).drawCount = s.drawCount := rfl

/-! ### `hostWrite` -/

@[simp] theorem hostWrite_x (bytes : List Byte) (s : State) : (hostWrite bytes s).x = s.x := rfl
@[simp] theorem hostWrite_pc (bytes : List Byte) (s : State) : (hostWrite bytes s).pc = s.pc := rfl
@[simp] theorem hostWrite_hi (bytes : List Byte) (s : State) : (hostWrite bytes s).hi = s.hi := rfl
@[simp] theorem hostWrite_lo (bytes : List Byte) (s : State) : (hostWrite bytes s).lo = s.lo := rfl
@[simp] theorem hostWrite_mem (bytes : List Byte) (s : State) : (hostWrite bytes s).mem = s.mem := rfl
@[simp] theorem hostWrite_status (bytes : List Byte) (s : State) : (hostWrite bytes s).status = s.status := rfl
@[simp] theorem hostWrite_out (bytes : List Byte) (s : State) : (hostWrite bytes s).out = s.out ++ bytes := rfl
@[simp] theorem hostWrite_params (bytes : List Byte) (s : State) : (hostWrite bytes s).params = s.params := rfl
@[simp] theorem hostWrite_draws (bytes : List Byte) (s : State) : (hostWrite bytes s).draws = s.draws := rfl
@[simp] theorem hostWrite_drawCount (bytes : List Byte) (s : State) : (hostWrite bytes s).drawCount = s.drawCount := rfl

/-! ### `State.setReg` -/

@[simp] theorem State.setReg_pc (s : State) (r : RegIdx) (v : Word) : (s.setReg r v).pc = s.pc := by
  unfold State.setReg; split <;> rfl
@[simp] theorem State.setReg_hi (s : State) (r : RegIdx) (v : Word) : (s.setReg r v).hi = s.hi := by
  unfold State.setReg; split <;> rfl
@[simp] theorem State.setReg_lo (s : State) (r : RegIdx) (v : Word) : (s.setReg r v).lo = s.lo := by
  unfold State.setReg; split <;> rfl
@[simp] theorem State.setReg_mem (s : State) (r : RegIdx) (v : Word) : (s.setReg r v).mem = s.mem := by
  unfold State.setReg; split <;> rfl
@[simp] theorem State.setReg_status (s : State) (r : RegIdx) (v : Word) : (s.setReg r v).status = s.status := by
  unfold State.setReg; split <;> rfl
@[simp] theorem State.setReg_out (s : State) (r : RegIdx) (v : Word) : (s.setReg r v).out = s.out := by
  unfold State.setReg; split <;> rfl
@[simp] theorem State.setReg_params (s : State) (r : RegIdx) (v : Word) : (s.setReg r v).params = s.params := by
  unfold State.setReg; split <;> rfl
@[simp] theorem State.setReg_draws (s : State) (r : RegIdx) (v : Word) : (s.setReg r v).draws = s.draws := by
  unfold State.setReg; split <;> rfl
@[simp] theorem State.setReg_drawCount (s : State) (r : RegIdx) (v : Word) : (s.setReg r v).drawCount = s.drawCount := by
  unfold State.setReg; split <;> rfl

/-! ### `State.takeDraw` -/

@[simp] theorem State.takeDraw_x (s : State) : s.takeDraw.x = s.x := by
  unfold State.takeDraw; split <;> rfl
@[simp] theorem State.takeDraw_pc (s : State) : s.takeDraw.pc = s.pc := by
  unfold State.takeDraw; split <;> rfl
@[simp] theorem State.takeDraw_hi (s : State) : s.takeDraw.hi = s.hi := by
  unfold State.takeDraw; split <;> rfl
@[simp] theorem State.takeDraw_lo (s : State) : s.takeDraw.lo = s.lo := by
  unfold State.takeDraw; split <;> rfl
@[simp] theorem State.takeDraw_mem (s : State) : s.takeDraw.mem = s.mem := by
  unfold State.takeDraw; split <;> rfl
@[simp] theorem State.takeDraw_status (s : State) : s.takeDraw.status = s.status := by
  unfold State.takeDraw; split <;> rfl
@[simp] theorem State.takeDraw_out (s : State) : s.takeDraw.out = s.out := by
  unfold State.takeDraw; split <;> rfl
@[simp] theorem State.takeDraw_params (s : State) : s.takeDraw.params = s.params := by
  unfold State.takeDraw; split <;> rfl

/-! ### Registers (10_state.md R21) -/

@[simp] theorem State.reg_zero (s : State) : s.reg 0#5 = 0 := rfl

@[simp] theorem State.setReg_zero (s : State) (v : Word) : s.setReg 0#5 v = s := rfl

/-- Two states with the same register file read the same. -/
theorem State.reg_congr {s t : State} (h : t.x = s.x) (r : RegIdx) : t.reg r = s.reg r := by
  simp [State.reg, h]

/-- What a register reads after a write, for every register and every destination. -/
theorem State.reg_setReg (s : State) (d : RegIdx) (v : Word) (r : RegIdx) :
    (s.setReg d v).reg r = if r = d ∧ d ≠ 0 then v else s.reg r := by
  unfold State.setReg
  split
  case isTrue h => simp [h]
  case isFalse h =>
    unfold State.reg
    by_cases hr : r = 0
    · subst hr
      rw [if_pos rfl, if_neg fun e => h e.1.symm, if_pos rfl]
    · simp only [hr, if_false, Vector.getElem_set, h, ne_eq, not_false_eq_true, and_true]
      by_cases hd : r = d
      · subst hd; simp
      · have : ¬ d.toNat = r.toNat := fun e => hd (BitVec.eq_of_toNat_eq e.symm)
        simp [hd, this]

@[simp] theorem State.reg_setPc (s : State) (v : Word) (r : RegIdx) : (s.setPc v).reg r = s.reg r := rfl
@[simp] theorem State.reg_advancePc (s : State) (r : RegIdx) : s.advancePc.reg r = s.reg r := rfl
@[simp] theorem State.reg_setMem (s : State) (m : Memory) (r : RegIdx) : (s.setMem m).reg r = s.reg r := rfl
@[simp] theorem State.reg_setStatus (s : State) (st : RunStatus) (r : RegIdx) :
    (s.setStatus st).reg r = s.reg r := rfl
@[simp] theorem reg_hostWrite (bytes : List Byte) (s : State) (r : RegIdx) :
    (hostWrite bytes s).reg r = s.reg r := rfl
@[simp] theorem State.reg_takeDraw (s : State) (r : RegIdx) : s.takeDraw.reg r = s.reg r :=
  State.reg_congr s.takeDraw_x r

/-- A register write leaves the stored register 0 alone. -/
theorem State.setReg_x_zero (s : State) (d : RegIdx) (v : Word) : (s.setReg d v).x[0] = s.x[0] := by
  unfold State.setReg
  split
  case isTrue => rfl
  case isFalse h =>
    have : d.toNat ≠ 0 := fun e => h (BitVec.eq_of_toNat_eq e)
    simp [this]

end Sys2Proof.Machine
end

