-- ==== Sys2Proof/Laws/Exec.lean ====
section
/-! SUPPORT. What an instruction and a step can do, said once: every instruction answers a next state, and each next state is one of the effects listed here. Later proofs cite these instead of unfolding the meanings. -/
namespace Sys2Proof.Machine

/-- The fault was raised by the fetch. -/
def CoreFault.ofFetch : CoreFault → Bool
  | .memBounds _ _ access => decide (access = .fetch)
  | .memRegion _ _ access => decide (access = .fetch)
  | _ => false

/-- The effects an instruction can have on the state after the fetch. -/
inductive Effect (s : State) : State → Prop where
  | register (d : RegIdx) (v : Word) : Effect s (s.setReg d v)
  | jump (target : Word) : Effect s (s.setPc target)
  | link (target : Word) : Effect s ((s.setReg linkReg s.pc).setPc target)
  | store {a v : Word} {m : Memory} (h : memWrite s.params s.mem a .word v = .ok m) : Effect s (s.setMem m)
  | output (bytes : List Byte) : Effect s (hostWrite bytes s)
  | nothing : Effect s s
  | draw (v : Word) : Effect s (s.takeDraw.setReg serviceReg v)
  | exit (h : s.reg serviceReg = 10) : Effect s (s.setStatus (.halted (s.reg argumentReg)))
  | fault (f : CoreFault) (h : f.ofFetch = false) : Effect s (s.setStatus (.faulted f))

/-! ### Shared operations -/

/-- A fault of an access names the access. -/
theorem accessFault_ofFetch {p : Params} {access : Access} {a : Word} {n : Nat} {f : CoreFault}
    (h : accessFault p access a n = some f) : f.ofFetch = decide (access = .fetch) := by
  rcases accessFault_eq_some h with ⟨-, rfl⟩ | ⟨-, -, rfl⟩ <;> rfl

theorem raise_eq (f : CoreFault) (s : State) : raise f s = .next (s.setStatus (.faulted f)) := rfl

theorem memReadString_ofFetch {p : Params} {m : Memory} {a : Word} {f : CoreFault}
    (h : memReadString p m a = .error f) : f.ofFetch = false := by
  unfold memReadString at h
  split at h
  · cases h; rfl
  · split at h
    · cases h
    · cases h; rfl

theorem branchIf_effect (c : Bool) (imm : Imm16) (s : State) :
    ∃ t, branchIf c imm s = .next t ∧ Effect s t := by
  cases c
  · exact ⟨s, rfl, .nothing⟩
  · exact ⟨_, rfl, .jump _⟩

theorem execLw_effect (rt rs : RegIdx) (imm : Imm16) (s : State) :
    ∃ t, execLw rt rs imm s = .next t ∧ Effect s t := by
  unfold execLw loadWord
  cases h : memRead s.params s.mem .load (loadAddress rs imm s) .word with
  | ok v => exact ⟨_, rfl, .register rt v⟩
  | error f => exact ⟨_, rfl, .fault f (accessFault_ofFetch (memRead_error h))⟩

theorem execSw_effect (rt rs : RegIdx) (imm : Imm16) (s : State) :
    ∃ t, execSw rt rs imm s = .next t ∧ Effect s t := by
  unfold execSw storeWord
  cases h : memWrite s.params s.mem (storeAddress rt s) .word (storeValue rs imm s) with
  | ok m => exact ⟨_, rfl, .store h⟩
  | error f => exact ⟨_, rfl, .fault f (accessFault_ofFetch (memWrite_error h))⟩

theorem servicePrintString_effect (s : State) : ∃ t, servicePrintString s = .next t ∧ Effect s t := by
  unfold servicePrintString
  cases h : memReadString s.params s.mem (s.reg argumentReg) with
  | ok bytes => exact ⟨_, rfl, .output bytes⟩
  | error f => exact ⟨_, rfl, .fault f (memReadString_ofFetch h)⟩

theorem execSyscall_effect (s : State) : ∃ t, execSyscall s = .next t ∧ Effect s t := by
  unfold execSyscall
  split_ifs with h1 h4 h5 h10 h11 h8 h9 h12
  · exact ⟨_, rfl, .output _⟩
  · exact servicePrintString_effect s
  · exact ⟨_, rfl, .draw _⟩
  · exact ⟨_, rfl, .exit h10⟩
  · exact ⟨_, rfl, .output _⟩
  · exact ⟨_, rfl, .nothing⟩
  · exact ⟨_, rfl, .nothing⟩
  · exact ⟨_, rfl, .nothing⟩
  · exact ⟨_, rfl, .fault _ rfl⟩

/-- Every instruction answers a next state, by one of the effects. -/
theorem exec_effect (i : Instr) (s : State) : ∃ t, exec i s = .next t ∧ Effect s t := by
  cases i with
  | add rd rs rt _ => exact ⟨_, rfl, .register _ _⟩
  | sub rd rs rt _ => exact ⟨_, rfl, .register _ _⟩
  | and rd rs rt _ => exact ⟨_, rfl, .register _ _⟩
  | or rd rs rt _ => exact ⟨_, rfl, .register _ _⟩
  | syscallRtype => exact ⟨_, rfl, .fault _ rfl⟩
  | syscall => exact execSyscall_effect s
  | lw rt rs imm => exact execLw_effect rt rs imm s
  | sw rt rs imm => exact execSw_effect rt rs imm s
  | lui => exact ⟨_, rfl, .register _ _⟩
  | ori => exact ⟨_, rfl, .register _ _⟩
  | nori => exact ⟨_, rfl, .register _ _⟩
  | slti => exact ⟨_, rfl, .register _ _⟩
  | beq rt rs imm => exact branchIf_effect _ imm s
  | bne rt rs imm => exact branchIf_effect _ imm s
  | bgtz _ rs imm => exact branchIf_effect _ imm s
  | j => exact ⟨_, rfl, .jump _⟩
  | jal => exact ⟨_, rfl, .link _⟩
  | addi => exact ⟨_, rfl, .fault _ rfl⟩
  | addiu => exact ⟨_, rfl, .fault _ rfl⟩

/-- The effect behind a next state. -/
theorem effect_of_exec {i : Instr} {s t : State} (h : exec i s = .next t) : Effect s t := by
  obtain ⟨u, hu, he⟩ := exec_effect i s
  rw [hu] at h
  cases h
  exact he

/-! ### The fetch and the step -/

/-- A fetch that every check allows reads the word at `pc`. -/
theorem fetch_of_allowed {s : State} (h : Allowed s.params .fetch s.pc 4) :
    fetch s = .ok (s.mem.readWide s.pc.toNat .word) := memRead_of_allowed h

theorem step_of_fetch_error {s : State} {f : CoreFault} (hr : s.status = .running) (hf : fetch s = .error f) :
    step s = .next (s.setStatus (.faulted f)) := by
  simp [step, hr, hf, raise_eq]

theorem step_of_illegal {s : State} {w : Word} {e : IllegalWord} (hr : s.status = .running)
    (hf : fetch s = .ok w) (hd : decode w = .error e) :
    step s = .next (s.advancePc.setStatus (.faulted (illegalFault e))) := by
  simp [step, hr, hf, hd, raise_eq]

theorem step_of_decode {s : State} {w : Word} {i : Instr} (hr : s.status = .running) (hf : fetch s = .ok w)
    (hd : decode w = .ok i) : step s = exec i s.advancePc := by
  simp [step, hr, hf, hd]

/-- What a step that answers a next state has done: a fetch fault, an illegal word, or an instruction. -/
theorem step_cases {s t : State} (h : step s = .next t) :
    s.status = .running ∧
      ((∃ f, fetch s = .error f ∧ t = s.setStatus (.faulted f)) ∨
        (∃ w e, fetch s = .ok w ∧ decode w = .error e ∧
          t = s.advancePc.setStatus (.faulted (illegalFault e))) ∨
        ∃ w i, fetch s = .ok w ∧ decode w = .ok i ∧ exec i s.advancePc = .next t) := by
  have hr : s.status = .running := by
    unfold step at h
    split at h <;> first | assumption | cases h
  refine ⟨hr, ?_⟩
  cases hf : fetch s with
  | error f =>
    rw [step_of_fetch_error hr hf] at h
    cases h
    exact .inl ⟨f, rfl, rfl⟩
  | ok w =>
    cases hd : decode w with
    | error e =>
      rw [step_of_illegal hr hf hd] at h
      cases h
      exact .inr (.inl ⟨w, e, rfl, hd, rfl⟩)
    | ok i =>
      rw [step_of_decode hr hf hd] at h
      exact .inr (.inr ⟨w, i, rfl, hd, h⟩)

end Sys2Proof.Machine
end

