-- ==== Sys2Proof/Laws/Loader.lean ====
section
/-! SUPPORT. The canonical form is kept by the loader and by `State.withFetchWord`; the registers after a CPU reset; the length of emitted bytes. -/
namespace Sys2Proof.Machine

/-- Writing the blocks of a well-formed image keeps the canonical form. -/
theorem wf_foldl_writeBytes {image : LaunchImage} (h : image.wf = true) {m : Memory} (hm : m.wf = true) :
    (image.foldl (fun m block => m.writeBytes block.1 block.2) m).wf = true := by
  induction image generalizing m with
  | nil => exact hm
  | cons b rest ih =>
    simp only [LaunchImage.wf, List.all_cons, Bool.and_eq_true, decide_eq_true_eq] at h
    exact ih h.2 (Memory.wf_writeBytes hm _ _ h.1)

/-- The launch memory of a well-formed image is canonical. -/
theorem wf_imageMemory {image : LaunchImage} (h : image.wf = true) : (imageMemory image).wf = true :=
  wf_foldl_writeBytes h rfl

/-- A section starts at its base plus its offset, modulo 2^32. -/
theorem sectionStart_eq (base offset : Word) :
    sectionStart base offset = (base.toNat + offset.toNat) % 2 ^ 32 := BitVec.toNat_add base offset

/-- Whatever sections and payloads it is given, the loader makes a well-formed image or reports an error. -/
theorem wf_placeSections {headers : List SectionHeader} {bytes : List Byte} {image : LaunchImage}
    (h : placeSections headers bytes = .ok image) : image.wf = true := by
  induction headers generalizing bytes image with
  | nil => cases h; rfl
  | cons hd rest ih =>
    unfold placeSections at h
    split at h
    · cases h
    · next base _ =>
      split_ifs at h with h1 h2
      cases hr : placeSections rest (bytes.drop hd.size.toNat) with
      | error e => rw [hr] at h; cases h
      | ok more =>
        rw [hr] at h
        cases h
        have hmore : more.wf = true := ih hr
        simp only [LaunchImage.wf, List.all_cons, Bool.and_eq_true, decide_eq_true_eq]
        exact ⟨by rw [List.length_take]; omega, hmore⟩

/-- The image of every object file that loads is well-formed. -/
theorem wf_readObject {littleEndian : Bool} {file : List Byte} {image : LaunchImage}
    (h : readObject littleEndian file = .ok image) : image.wf = true := by
  unfold readObject at h
  split at h
  · cases h
  · split at h
    · cases h
    · exact wf_placeSections h

/-- Placing a word where the next step fetches keeps the canonical form. -/
theorem withFetchWord_wf {s : State} (h : s.mem.wf = true) (nbits w : Nat) :
    (s.withFetchWord nbits w).mem.wf = true := by
  unfold State.withFetchWord
  split
  case isTrue hb =>
    refine Memory.wf_writeBytes h _ _ ?_
    have : s.pc.toNat + 4 ≤ maxMemory := by simpa [inBounds] using hb
    exact this
  case isFalse => exact h

/-- Every register reads zero after a CPU reset. -/
theorem State.reg_cpuReset (s : State) (r : RegIdx) : s.cpuReset.reg r = 0 := by
  unfold State.reg State.cpuReset
  split <;> simp

/-- An assembled program is four bytes a word. -/
theorem length_emittedBytes (words : List Word) : (Assembler.emittedBytes words).length = 4 * words.length := by
  unfold Assembler.emittedBytes
  induction words with
  | nil => rfl
  | cons w rest ih =>
    rw [List.flatMap_cons, List.length_append, ih, List.length_cons]
    simp [wordBytes]
    omega

end Sys2Proof.Machine
end

