-- ==== Sys2Proof/Laws/Operands.lean ====
section
/-! SUPPORT. The operand forms in the integers: what sign extension, the branch offset and the jump target are as numbers. -/
namespace Sys2Proof.Machine

/-- The sign-extended immediate keeps its signed value. -/
theorem sext16_toInt (imm : Imm16) : (sext16 imm).toInt = imm.toInt :=
  BitVec.toInt_signExtend_of_le (by omega)

/-- The sign-extended immediate is its signed value modulo 2^32. -/
theorem sext16_eq_ofInt (imm : Imm16) : sext16 imm = BitVec.ofInt 32 imm.toInt := by
  apply BitVec.eq_of_toInt_eq
  rw [sext16_toInt, BitVec.toInt_ofInt]
  have := imm.toInt_lt
  have := imm.le_toInt
  rw [Int.bmod_eq_of_le] <;> simp at * <;> omega

/-- The branch offset is four times the signed immediate, modulo 2^32. -/
theorem sext16_shiftLeft_two (imm : Imm16) : sext16 imm <<< 2 = BitVec.ofInt 32 (4 * imm.toInt) := by
  rw [sext16_eq_ofInt]
  apply BitVec.eq_of_toNat_eq
  rw [BitVec.toNat_shiftLeft, Nat.shiftLeft_eq, BitVec.toNat_ofInt, BitVec.toNat_ofInt]
  omega

/-- The upper immediate is the immediate times 2^16. -/
theorem upperImm_toNat (imm : Imm16) : (upperImm imm).toNat = imm.toNat * 65536 := by
  have := imm.isLt
  simp [upperImm, zext16, Nat.shiftLeft_eq]
  omega

/-- A jump target is the number of its field. -/
theorem jumpTarget_toNat (target : Target26) : (jumpTarget target).toNat = target.toNat := by
  have := target.isLt
  simp [jumpTarget]
  omega

theorem signedLess_eq_true {a b : Word} : signedLess a b = true ↔ a.toInt < b.toInt := by simp [signedLess]

theorem signedPositive_eq_true {a : Word} : signedPositive a = true ↔ 0 < a.toInt := by simp [signedPositive]

end Sys2Proof.Machine
end

