-- ==== Sys2Proof/Laws/PerInstr.lean ====
section
/-! SUPPORT. Families of statements about every instruction as a term, one lemma per constructor: an instruction's format is the one R72 selects by its opcode. -/
namespace Sys2Proof.Laws.FormatFollowsOpcode

/-- R72: the opcode of an instruction's word selects the instruction's format. -/
def Statement (i : Instr) : Prop := formatOf (opcodeOf (encode i)) = i.format

theorem add (rd rs rt : RegIdx) (shamt : Shamt) : Statement (.add rd rs rt shamt) := by
  simp [Statement, encode, formatOf, Instr.format]

theorem sub (rd rs rt : RegIdx) (shamt : Shamt) : Statement (.sub rd rs rt shamt) := by
  simp [Statement, encode, formatOf, Instr.format]

theorem and (rd rs rt : RegIdx) (shamt : Shamt) : Statement (.and rd rs rt shamt) := by
  simp [Statement, encode, formatOf, Instr.format]

theorem or (rd rs rt : RegIdx) (shamt : Shamt) : Statement (.or rd rs rt shamt) := by
  simp [Statement, encode, formatOf, Instr.format]

theorem syscallRtype (rd rs rt : RegIdx) (shamt : Shamt) : Statement (.syscallRtype rd rs rt shamt) := by
  simp [Statement, encode, formatOf, Instr.format]

theorem syscall (rt rs : RegIdx) (imm : Imm16) : Statement (.syscall rt rs imm) := by
  simp [Statement, encode, formatOf, Instr.format]

theorem lw (rt rs : RegIdx) (imm : Imm16) : Statement (.lw rt rs imm) := by
  simp [Statement, encode, formatOf, Instr.format]

theorem sw (rt rs : RegIdx) (imm : Imm16) : Statement (.sw rt rs imm) := by
  simp [Statement, encode, formatOf, Instr.format]

theorem lui (rt rs : RegIdx) (imm : Imm16) : Statement (.lui rt rs imm) := by
  simp [Statement, encode, formatOf, Instr.format]

theorem ori (rt rs : RegIdx) (imm : Imm16) : Statement (.ori rt rs imm) := by
  simp [Statement, encode, formatOf, Instr.format]

theorem nori (rt rs : RegIdx) (imm : Imm16) : Statement (.nori rt rs imm) := by
  simp [Statement, encode, formatOf, Instr.format]

theorem slti (rt rs : RegIdx) (imm : Imm16) : Statement (.slti rt rs imm) := by
  simp [Statement, encode, formatOf, Instr.format]

theorem beq (rt rs : RegIdx) (imm : Imm16) : Statement (.beq rt rs imm) := by
  simp [Statement, encode, formatOf, Instr.format]

theorem bne (rt rs : RegIdx) (imm : Imm16) : Statement (.bne rt rs imm) := by
  simp [Statement, encode, formatOf, Instr.format]

theorem bgtz (rt rs : RegIdx) (imm : Imm16) : Statement (.bgtz rt rs imm) := by
  simp [Statement, encode, formatOf, Instr.format]

theorem addi (rt rs : RegIdx) (imm : Imm16) : Statement (.addi rt rs imm) := by
  simp [Statement, encode, formatOf, Instr.format]

theorem addiu (rt rs : RegIdx) (imm : Imm16) : Statement (.addiu rt rs imm) := by
  simp [Statement, encode, formatOf, Instr.format]

theorem j (target : Target26) : Statement (.j target) := by
  simp [Statement, encode, formatOf, Instr.format]

theorem jal (target : Target26) : Statement (.jal target) := by
  simp [Statement, encode, formatOf, Instr.format]

end Sys2Proof.Laws.FormatFollowsOpcode
end

