-- ==== Sys2Proof/Tests/Slice0.lean ====
section
/-! SUPPORT. The model's own tests. Expected values are those of the spec: the rule or test vector is named beside each. Words are written out field by field from 30_encoding.md R71, R76 and R77. The last part shows, for each statement with hypotheses, states and operands that meet them. -/
namespace Sys2Proof.Tests
open Sys2Proof.Machine Sys2Proof.Claims

/-! ### Helpers -/

/-- The reset state with registers set. -/
def withRegs (rs : List (RegIdx × Word)) : State := rs.foldl (fun s r => s.setReg r.1 r.2) State.reset

/-- Bytes placed in memory. -/
def withBytes (a : Nat) (bytes : List Byte) (s : State) : State := s.setMem (s.mem.writeBytes a bytes)

/-- `pc` at an address, with an instruction word there. -/
def at_ (pc w : Word) (s : State) : State := (s.setPc pc).withFetchWord 32 w.toNat

/-- What is seen of the next state, if the step answers one. -/
def after {α : Type} (s : State) (see : State → α) : Option α :=
  match step s with
  | .next t => some (see t)
  | _ => none

/-- Both region parameters on (R52, R53). -/
def strict : Params := { Params.default with reservedLowFaults := true, textReadOnly := true }

/-- A state with other parameters. -/
def withParams (p : Params) (s : State) : State := { s with params := p }

/-! ### Well-formedness: each check refuses a term -/

theorem test_rfields_fit : RFields.fits ⟨63, 31, 31, 31, 31, 63⟩ = true := by decide
theorem test_rfields_refused :
    RFields.fits ⟨64, 0, 0, 0, 0, 0⟩ = false ∧ RFields.fits ⟨0, 32, 0, 0, 0, 0⟩ = false ∧
    RFields.fits ⟨0, 0, 32, 0, 0, 0⟩ = false ∧ RFields.fits ⟨0, 0, 0, 32, 0, 0⟩ = false ∧
    RFields.fits ⟨0, 0, 0, 0, 32, 0⟩ = false ∧ RFields.fits ⟨0, 0, 0, 0, 0, 64⟩ = false := by decide
theorem test_ifields_fit : IFields.fits ⟨63, 31, 31, 65535⟩ = true := by decide
theorem test_ifields_refused :
    IFields.fits ⟨64, 0, 0, 0⟩ = false ∧ IFields.fits ⟨0, 32, 0, 0⟩ = false ∧
    IFields.fits ⟨0, 0, 32, 0⟩ = false ∧ IFields.fits ⟨0, 0, 0, 65536⟩ = false := by decide
theorem test_jfields_fit : JFields.fits ⟨63, 0x3FFFFFF⟩ = true := by decide
theorem test_jfields_refused : JFields.fits ⟨64, 0⟩ = false ∧ JFields.fits ⟨0, 0x4000000⟩ = false := by decide
theorem test_image_fits : LaunchImage.wf [(0xFFFFFFFE, [1, 2])] = true := by decide
theorem test_image_refused : LaunchImage.wf [(0, [1]), (0xFFFFFFFE, [1, 2, 3])] = false := by decide

/-! ### Decoding: each constructor's word, field by field -/

theorem test_decode_add : decode 0b000000_00010_00011_00001_00101_100000 = .ok (.add 1 2 3 5) := by decide
theorem test_decode_sub : decode 0b000000_00001_00010_00011_00000_100010 = .ok (.sub 3 1 2 0) := by decide
theorem test_decode_and : decode 0b000000_00001_00010_00011_00000_100100 = .ok (.and 3 1 2 0) := by decide
theorem test_decode_or : decode 0b000000_00001_00010_00011_00000_100101 = .ok (.or 3 1 2 0) := by decide
theorem test_decode_syscall_rtype :
    decode 0b000000_00001_00010_00011_00100_001100 = .ok (.syscallRtype 3 1 2 4) := by decide
theorem test_decode_syscall : decode 0b001100_00001_00010_1000000000000001 = .ok (.syscall 2 1 0x8001) := by decide
theorem test_decode_lw : decode 0b100011_00011_00010_0000000000001000 = .ok (.lw 2 3 8) := by decide
theorem test_decode_sw : decode 0b101011_00001_00011_0000000000000101 = .ok (.sw 3 1 5) := by decide
theorem test_decode_lui : decode 0b001111_00000_00011_0001000000000000 = .ok (.lui 3 0 0x1000) := by decide
theorem test_decode_ori : decode 0b001101_00000_00010_0000000000000001 = .ok (.ori 2 0 1) := by decide
theorem test_decode_nori : decode 0b001110_00001_00010_0000000000001111 = .ok (.nori 2 1 15) := by decide
theorem test_decode_slti : decode 0b001010_00100_00110_0000000001000100 = .ok (.slti 6 4 68) := by decide
theorem test_decode_beq : decode 0b000100_00001_00000_0000000000000010 = .ok (.beq 0 1 2) := by decide
theorem test_decode_bne : decode 0b000101_00000_00110_1111111111111100 = .ok (.bne 6 0 0xFFFC) := by decide
theorem test_decode_bgtz : decode 0b000111_00011_00000_1111111111111101 = .ok (.bgtz 0 3 0xFFFD) := by decide
theorem test_decode_j : decode 0b000010_00000100000000000000000000 = .ok (.j 0x0100000) := by decide
theorem test_decode_jal : decode 0b000011_00000000000001000000000000 = .ok (.jal 0x0001000) := by decide
theorem test_decode_addi : decode 0b001000_00010_00001_0000000000000101 = .ok (.addi 1 2 5) := by decide
theorem test_decode_addiu : decode 0b001001_00010_00001_0000000000000101 = .ok (.addiu 1 2 5) := by decide
/-- R80: the words that no row covers. -/
theorem test_decode_illegal :
    decode 0 = .error (.unknownFunct 0) ∧ decode 0x00000021 = .error (.unknownFunct 0x21) ∧
    decode 0x04000000 = .error (.unknownOpcode 1) ∧ decode 0xFFFFFFFF = .error (.unknownOpcode 0x3F) := by decide
/-- R70, R42: the bytes of a word, most significant first, and what follows them. -/
theorem test_decode_bytes :
    decodeBytes [0x3C, 0x03, 0x10, 0x00, 0x7F] = some (.ok (.lui 3 0 0x1000), [0x7F]) ∧
    decodeBytes [0x3C, 0x03, 0x10] = none := by decide
theorem test_decode_table_word :
    decodeTableWord 32 0x00430820 = some (.add 1 2 3 0) ∧ decodeTableWord 32 0 = none := by decide
/-- R71, R76: `encode` on the words of the spec's examples. -/
theorem test_encode :
    encode (.add 1 2 3 0) = 0x00430820 ∧ encode (.sw 3 1 5) = 0xAC230005 ∧ encode (.jal 0x1000) = 0x0C001000 := by
  decide

/-! ### One step of each instruction -/

/-- R130, example. -/
theorem test_add : after (at_ 0x00400000 0x00430820 (withRegs [(2, 5), (3, 7)]))
    (fun t => (t.reg 1, t.pc)) = some (12, 0x00400004) := by decide
/-- R130: the sum wraps with no trap; `shamt` is 5 and ignored. -/
theorem test_add_wraps : after (at_ 0x00400000 0x00430960 (withRegs [(2, 0x7FFFFFFF), (3, 1)]))
    (fun t => (t.reg 1, t.status)) = some (0x80000000, .running) := by decide
/-- R131, example: the destination is a source. -/
theorem test_sub : after (at_ 0x00400000 0x00611822 (withRegs [(3, 3), (1, 1)]))
    (fun t => t.reg 3) = some 2 := by decide
/-- R131: `0 - 1`, and a write to register 0. -/
theorem test_sub_wraps :
    after (at_ 0x00400000 0x00011822 (withRegs [(1, 1)])) (fun t => t.reg 3) = some 0xFFFFFFFF ∧
    after (at_ 0x00400000 0x00610022 (withRegs [(3, 3), (1, 1)])) (fun t => t.reg 0) = some 0 := by decide
/-- R132, example. -/
theorem test_and : after (at_ 0x00400000 0x00221824 (withRegs [(1, 0xF0F0F0F0), (2, 0xFF00FF00)]))
    (fun t => t.reg 3) = some 0xF000F000 := by decide
/-- R133, example. -/
theorem test_or : after (at_ 0x00400000 0x00221825 (withRegs [(1, 0xF0F0F0F0), (2, 0x0F0F0F0F)]))
    (fun t => t.reg 3) = some 0xFFFFFFFF := by decide
/-- R115: funct 0x0C faults with `pc = pc_i + 4`. -/
theorem test_syscall_rtype : after (at_ 0x00400000 0x0000000C (withRegs [(2, 10)]))
    (fun t => (t.status, t.pc)) = some (.faulted (.unknownFunct 0x0C), 0x00400004) := by decide
/-- R140, example: the most significant byte is at the lowest address. -/
theorem test_lw : after (at_ 0x00400000 0x8C640000
    (withBytes 0x10000000 [0, 0, 0x04, 0xD7] (withRegs [(3, 0x10000000)]))) (fun t => t.reg 4) = some 0x4D7 := by
  decide
/-- R140: `4 - 8` wraps to 0xFFFFFFFC, which is in bounds; one byte further faults, for register 0 too. -/
theorem test_lw_at_the_top :
    after (at_ 0x00400000 0x8C64FFF8 (withBytes 0xFFFFFFFC [1, 2, 3, 4] (withRegs [(3, 4)])))
      (fun t => t.reg 4) = some 0x01020304 ∧
    after (at_ 0x00400000 0x8C60FFF8 (withRegs [(3, 5)])) (fun t => t.status) =
      some (.faulted (.memBounds 0xFFFFFFFD 4 .load)) := by decide
/-- R141, example: the address is `x[rt]`, the value `x[rs] + imm`. -/
theorem test_sw : after (at_ 0x00400000 0xAC230005 (withRegs [(3, 0x10000000), (1, 1234)]))
    (fun t => [0x10000000, 0x10000001, 0x10000002, 0x10000003].map t.mem.read) = some [0, 0, 0x04, 0xD7] := by
  decide
/-- R141, R45: a store past the top faults and writes no byte. -/
theorem test_sw_faults : after (at_ 0x00400000 0xAC230005 (withRegs [(3, 0xFFFFFFFD), (1, 0x11111111)]))
    (fun t => (t.status, t.mem.read 0xFFFFFFFD)) = some (.faulted (.memBounds 0xFFFFFFFD 4 .store), 0) := by decide
/-- R150, example, and the immediate 0xFFFF. -/
theorem test_lui :
    after (at_ 0x00400000 0x3C031000 State.reset) (fun t => t.reg 3) = some 0x10000000 ∧
    after (at_ 0x00400000 0x3C03FFFF State.reset) (fun t => t.reg 3) = some 0xFFFF0000 := by decide
/-- R151, example, and the zero extension of 0xFFFF. -/
theorem test_ori :
    after (at_ 0x00400000 0x34020001 State.reset) (fun t => t.reg 2) = some 1 ∧
    after (at_ 0x00400000 0x3402FFFF State.reset) (fun t => t.reg 2) = some 0x0000FFFF := by decide
/-- R152, example. -/
theorem test_nori : after (at_ 0x00400000 0x3822000F (withRegs [(1, 0x12340000)]))
    (fun t => t.reg 2) = some 0xEDCBFFF0 := by decide
/-- R154, example. -/
theorem test_slti : after (at_ 0x00400000 0x28860044 (withRegs [(4, 66)])) (fun t => t.reg 6) = some 1 := by decide
/-- R154: `0x80000000 < -32768`, and `0x7FFFFFFF < 32767` fails. -/
theorem test_slti_signed :
    after (at_ 0x00400000 0x28868000 (withRegs [(4, 0x80000000)])) (fun t => t.reg 6) = some 1 ∧
    after (at_ 0x00400000 0x28867FFF (withRegs [(4, 0x7FFFFFFF), (6, 9)])) (fun t => t.reg 6) = some 0 := by decide
/-- R160, example: taken, to `pc_i + 12`. -/
theorem test_beq : after (at_ 0x00400000 0x10010002 State.reset) (fun t => t.pc) = some 0x0040000C := by decide
/-- R160: not taken. -/
theorem test_beq_not_taken : after (at_ 0x00400000 0x10010002 (withRegs [(1, 1)]))
    (fun t => t.pc) = some 0x00400004 := by decide
/-- R161, example: a backward branch. -/
theorem test_bne : after (at_ 0x00400018 0x1406FFFC (withRegs [(6, 1)])) (fun t => t.pc) = some 0x0040000C := by
  decide
/-- R162, example. -/
theorem test_bgtz : after (at_ 0x00400010 0x1C60FFFD (withRegs [(3, 2)])) (fun t => t.pc) = some 0x00400008 := by
  decide
/-- R162: 0 and a negative number are not positive. -/
theorem test_bgtz_not_taken :
    after (at_ 0x00400010 0x1C60FFFD State.reset) (fun t => t.pc) = some 0x00400014 ∧
    after (at_ 0x00400010 0x1C60FFFD (withRegs [(3, 0x80000000)])) (fun t => t.pc) = some 0x00400014 := by decide
/-- R170, example: the target is not shifted. -/
theorem test_j : after (at_ 0x00400000 0x08100000 State.reset) (fun t => (t.pc, t.reg 31)) = some (0x00100000, 0) := by
  decide
/-- R171, example. -/
theorem test_jal : after (at_ 0x00400000 0x0C001000 State.reset) (fun t => (t.pc, t.reg 31)) =
    some (0x00001000, 0x00400004) := by decide
/-- R182, R183, R186: the bytes that services 1, 4 and 11 append. -/
theorem test_syscall_prints :
    after (at_ 0x00400000 0x30000000 (withRegs [(2, 1), (4, 0xFFFFFFFF)])) (fun t => t.out) = some [0x2D, 0x31] ∧
    after (at_ 0x00400000 0x30000000 (withBytes 0x10000000 [0x48, 0x69] (withRegs [(2, 4), (4, 0x10000000)])))
      (fun t => t.out) = some [0x48, 0x69] ∧
    after (at_ 0x00400000 0x30000000 (withRegs [(2, 11), (4, 0x141)])) (fun t => t.out) = some [0x41] := by decide
/-- R185, R188, R184: exit, an unknown code compared on 32 bits, and a read that the host has settled. -/
theorem test_syscall_ends_and_reads :
    after (at_ 0x00400000 0x30000000 (withRegs [(2, 10), (4, 0x12345678)])) (fun t => (t.status, t.pc)) =
      some (.halted 0x12345678, 0x00400004) ∧
    after (at_ 0x00400000 0x30000000 (withRegs [(2, 0x101)])) (fun t => t.status) =
      some (.faulted (.unknownSyscall 0x101)) ∧
    after (at_ 0x00400000 0x30000000 { withRegs [(2, 5)] with draws := [0xFFFFFFF9] }) (fun t => t.reg 2) =
      some 0xFFFFFFF9 := by decide
/-- R116. -/
theorem test_addi : after (at_ 0x00400000 0x20410005 State.reset) (fun t => (t.status, t.pc, t.reg 1)) =
    some (.faulted (.unknownOpcode 8), 0x00400004, 0) := by decide
/-- R116. -/
theorem test_addiu : after (at_ 0x00400000 0x24410005 State.reset) (fun t => (t.status, t.pc, t.reg 1)) =
    some (.faulted (.unknownOpcode 9), 0x00400004, 0) := by decide

/-! ### The step and the memory -/

/-- R111: a fetch past the top leaves `pc`. -/
theorem test_fetch_fault : after (State.reset.setPc 0xFFFFFFFD) (fun t => (t.status, t.pc)) =
    some (.faulted (.memBounds 0xFFFFFFFD 4 .fetch), 0xFFFFFFFD) := by decide
/-- R234, R80: a run from `pc = 0` over zero memory. -/
theorem test_reset_step : after State.reset (fun t => (t.status, t.pc)) =
    some (.faulted (.unknownFunct 0), 4) := by decide
/-- R47: a misaligned fetch; R23: `pc + 4` wraps at 0xFFFFFFFC. -/
theorem test_fetch_anywhere :
    after (at_ 0x00400001 0x34020001 State.reset) (fun t => (t.reg 2, t.pc)) = some (1, 0x00400005) ∧
    after (at_ 0xFFFFFFFC 0x34020001 State.reset) (fun t => (t.reg 2, t.pc)) = some (1, 0) := by decide
/-- R52, R53: the two parameters refuse a fetch below TEXT_OFFSET and a store to text. -/
theorem test_regions :
    after (withParams strict (at_ 0x003FFFFF 0x34020001 State.reset)) (fun t => t.status) =
      some (.faulted (.memRegion 0x003FFFFF 4 .fetch)) ∧
    after (withParams strict (at_ 0x00400000 0xAC230005 (withRegs [(3, 0x0FFFFFFF)]))) (fun t => t.status) =
      some (.faulted (.memRegion 0x0FFFFFFF 4 .store)) := by decide
/-- The canonical form: zero bytes are not listed. -/
theorem test_write_zero : Memory.writeBytes [(5, 7), (9, 1)] 5 [0, 3] = [(6, 3), (9, 1)] := by decide
/-- R60, R44, R45: the byte and halfword operations. -/
theorem test_narrow_accesses :
    writeHalfword Params.default [] 0xABCD 0x10000000 = .ok [(0x10000000, 0xAB), (0x10000001, 0xCD)] ∧
    readByte Params.default [(0x10000001, 0xCD)] 0x10000001 = .ok 0xCD ∧
    readHalfword Params.default [(0x10000001, 0xCD)] 0x10000000 = .ok 0x00CD ∧
    readHalfword Params.default [] 0xFFFFFFFF = .error (.memBounds 0xFFFFFFFF 2 .load) := by decide

/-! ### Launch and assembler -/

/-- R235, R233: one word saved, loaded and run at ENTRY_PC. -/
theorem test_launch :
    (launchObject Params.default (saveObject true (Assembler.emittedBytes [0x34020001]))).toOption.bind
      (fun s => after s (fun t => (t.reg 2, t.pc))) = some (1, 0x00400004) := by decide
/-- R233: a wrong version. -/
theorem test_bad_version :
    launchObject Params.default [0x4D, 0x49, 0x50, 0x53, 0, 2, 0, 0] = .error .format := by decide
/-- R233, R10: a text section with offset 0xFFC00000 starts at address 0; a payload that runs past the top. -/
theorem test_section_start :
    placeSections [⟨0, 0xFFC00000, 2⟩] [7, 8] = .ok [(0, [7, 8])] ∧
    placeSections [⟨1, 0xF0000001, 1⟩] [7] = .ok [(1, [7])] ∧
    placeSections [⟨0, 0xFFBFFFFF, 2⟩] [7, 8] = .error .outsideMemory := by decide
/-- R95, R97, R90: the source's `add`, the swapped `sw`, a skipped line with a trailing comment. -/
theorem test_assemble_lines :
    Assembler.assembleLine "  add $t1, $t2, $t3".toList = .ok [0x00430820] ∧
    Assembler.assembleLine "sw $t3, $t1, 5".toList = .ok [0xAC230005] ∧
    Assembler.assembleLine "andi $t0, $t0, 0".toList = .ok [0x30000000] ∧
    Assembler.assembleLine "add $t1, $t2, $t3 # sum".toList = .ok [] := by decide
/-- R99: the source's three errors. -/
theorem test_assemble_errors :
    Assembler.assembleLine "add $t1, $t2".toList = .error .wrongArgumentCount ∧
    Assembler.assembleLine "add $x1, $t2, $t3".toList = .error .invalidRegister ∧
    Assembler.assembleLine "addi $t1, $t2, 99999".toList = .error .immediateOutOfRange ∧
    Assembler.assembleLine "li $t1, 5".toList = .error .unknownMnemonic := by decide

/-! ### Witnesses: what each statement assumes can be met -/

/-- `EncodeOfDecodeIsTheWord`, `TableRowsAreDisjointAndDecide`: words that decode and one that does not. -/
theorem test_witness_decode :
    decode 0x03FFFFE0 = .ok (.add 31 31 31 31) ∧ decode 0x0FFFFFFF = .ok (.jal 0x3FFFFFF) ∧
    decode 0xFFFFFFFF = .error (.unknownOpcode 0x3F) ∧ (⟨"jal", 0x0C000000, 0xFC000000⟩ : TableRow) ∈ opcodeTable ∧
    TableRow.covers ⟨"jal", 0x0C000000, 0xFC000000⟩ 0x0FFFFFFF = true := by decide

/-- `PackersRoundTrip`: tuples that fit at the upper bound. -/
theorem test_witness_PackersRoundTrip : RFields.fits ⟨63, 31, 31, 31, 31, 63⟩ = true ∧
    IFields.fits ⟨63, 31, 31, 65535⟩ = true ∧ JFields.fits ⟨63, 0x3FFFFFF⟩ = true := by decide

/-- `OpcodeAndFunctSelectTheInstruction` and the decoding clauses: each opcode and funct with every other bit
set, and a code outside each list. -/
theorem test_witness_opcode_and_funct :
    (∀ f ∈ [0x20, 0x22, 0x24, 0x25, 0x0C, 0x3F],
      (0x03FFFFC0 + f) / 2 ^ 26 = 0 ∧ (0x03FFFFC0 + f) % 64 = f ∧
        (functOf (BitVec.ofNat 32 (0x03FFFFC0 + f))).toNat = f) ∧
    (∀ o ∈ [0x0C, 0x23, 0x2B, 0x0F, 0x0D, 0x0E, 0x0A, 0x04, 0x05, 0x07, 0x02, 0x03, 0x08, 0x09, 0x3F],
      (o * 2 ^ 26 + 0x3FFFFFF) / 2 ^ 26 = o ∧ (opcodeOf (BitVec.ofNat 32 (o * 2 ^ 26 + 0x3FFFFFF))).toNat = o) := by
  decide

/-- `StepRunsDecodedInstruction`: at the last address a word fits. -/
theorem test_witness_StepRunsDecodedInstruction :
    Fetches (at_ 0xFFFFFFFC 0x34020001 State.reset) 0x34020001 ∧ decode 0x34020001 = .ok (.ori 2 0 1) := by
  unfold Fetches InSpace ReadAllowed TouchesReserved; decide

/-- `FetchFaultLeavesPc`, both clauses at their boundaries. -/
theorem test_witness_FetchFaultLeavesPc :
    ((State.reset.setPc 0xFFFFFFFD).status = .running ∧ ¬ InSpace (State.reset.setPc 0xFFFFFFFD).pc 4) ∧
    (withParams strict (State.reset.setPc 0x003FFFFF)).status = .running ∧
    InSpace (withParams strict (State.reset.setPc 0x003FFFFF)).pc 4 ∧
    ¬ ReadAllowed strict (withParams strict (State.reset.setPc 0x003FFFFF)).pc 4 := by
  unfold InSpace ReadAllowed TouchesReserved; decide

/-- `UnknownFunctFaults`. -/
theorem test_witness_UnknownFunctFaults :
    Fetches (at_ 0x00400000 0x0000000C State.reset) 0x0000000C ∧ opcodeOf 0x0000000C = 0 ∧
    functOf 0x0000000C ≠ 0x20 ∧ functOf 0x0000000C ≠ 0x22 ∧ functOf 0x0000000C ≠ 0x24 ∧
    functOf 0x0000000C ≠ 0x25 := by
  unfold Fetches InSpace ReadAllowed TouchesReserved; decide

/-- `UnknownOpcodeFaults`: `addi`, and the last opcode. -/
theorem test_witness_UnknownOpcodeFaults :
    (Fetches (at_ 0x00400000 0x20410005 State.reset) 0x20410005 ∧ opcodeOf 0x20410005 = 0x08) ∧
    Fetches (at_ 0x00400000 0xFFFFFFFF State.reset) 0xFFFFFFFF ∧
    opcodeOf 0xFFFFFFFF ∉ [0x00, 0x0C, 0x02, 0x03, 0x23, 0x2B, 0x0F, 0x0D, 0x0E, 0x0A, 0x04, 0x05, 0x07] := by
  unfold Fetches InSpace ReadAllowed TouchesReserved; decide

/-- `StepIsDefinedExactlyWhileRunning`: states of each status. -/
theorem test_witness_StepIsDefinedExactlyWhileRunning :
    (State.reset.setStatus (.halted 3)).status = .halted 3 ∧
    (State.reset.setStatus (.faulted (.unknownFunct 0))).status = .faulted (.unknownFunct 0) ∧
    State.reset.status = .running := by decide

/-- A state whose step is a store of 5 at 0x10000000. -/
def storing : State := at_ 0x00400000 0xAC030005 (withRegs [(3, 0x10000000)])

/-- `StepKeepsInvariant`, `StepKeepsParameters`, `OutputOnlyGrows`: a state with the invariant that steps, with
memory listed before and after. -/
theorem test_witness_StepKeepsInvariant :
    storing.Inv ∧ ∃ t, step storing = .next t ∧ t.mem.read 0x10000003 = 5 ∧ t.params = storing.params :=
  ⟨⟨by decide, by decide, by decide, by decide⟩, _, rfl, by decide, by decide⟩

/-- `FaultCommitsOnlyPcAndStatus`, `OutputOnlyGrows`: a fault of the fetch, and one after it. -/
theorem test_witness_FaultCommitsOnlyPcAndStatus :
    ((∃ t, step (State.reset.setPc 0xFFFFFFFD) = .next t ∧
        t.status = .faulted (.memBounds 0xFFFFFFFD 4 .fetch)) ∧ FetchFault (.memBounds 0xFFFFFFFD 4 .fetch)) ∧
    (∃ t, step State.reset = .next t ∧ t.status = .faulted (.unknownFunct 0)) ∧
      ¬ FetchFault (.unknownFunct 0) := by
  refine ⟨⟨⟨_, rfl, by decide⟩, ⟨_, _, .inl rfl⟩⟩, ⟨_, rfl, by decide⟩, ?_⟩
  rintro ⟨a, n, h | h⟩ <;> cases h

/-- `OnlyStoreChangesMemory`: a state that fetches an `add`. -/
theorem test_witness_OnlyStoreChangesMemory :
    (∀ w, Fetches (at_ 0x00400000 0x00430820 State.reset) w → opcodeOf w ≠ 0x2B) ∧
    ∃ t, step (at_ 0x00400000 0x00430820 State.reset) = .next t := by
  refine ⟨?_, _, rfl⟩
  rintro w ⟨-, -, -, h⟩
  have h' : w.toNat = (0x00430820 : Word).toNat := h.trans (by decide)
  rw [BitVec.eq_of_toNat_eq h']
  decide

/-- `OnlyDestinationRegisterChanges`: another register of an `add`, and register 4 of a `read_int`. -/
theorem test_witness_OnlyDestinationRegisterChanges :
    ((∃ t, exec (.add 1 2 3 0) State.reset = .next t) ∧ destination (.add 1 2 3 0) State.reset ≠ some 31) ∧
    (∃ t, exec (.syscall 0 0 0) (withRegs [(2, 5)]) = .next t) ∧
      destination (.syscall 0 0 0) (withRegs [(2, 5)]) ≠ some 4 :=
  ⟨⟨⟨_, rfl⟩, by decide⟩, ⟨_, rfl⟩, by decide⟩

/-- `OnlyExitHalts`: a state that fetches `syscall` with code 10. -/
theorem test_witness_OnlyExitHalts :
    Fetches (at_ 0x00400000 0x33FFFFFF (withRegs [(2, 10)])) 0x33FFFFFF ∧
    ∃ t, step (at_ 0x00400000 0x33FFFFFF (withRegs [(2, 10)])) = .next t := by
  refine ⟨?_, _, rfl⟩
  unfold Fetches InSpace ReadAllowed TouchesReserved; decide

/-- `RegisterFileLaw`: a destination that is not register 0, and another register. -/
theorem test_witness_RegisterFileLaw : (31 : RegIdx) ≠ 0 ∧ (0 : RegIdx) ≠ 31 := by decide

/-- `LwLoadsOrFaults`: the three clauses at their boundaries. -/
theorem test_witness_LwLoadsOrFaults :
    ((0xFFFFFFFC : Word) = (withRegs [(3, 0x00007FFC)]).reg 3 + BitVec.ofInt 32 (0x8000 : Imm16).toInt ∧
      InSpace 0xFFFFFFFC 4 ∧ ReadAllowed strict 0xFFFFFFFC 4 ∧ ReadAllowed strict 0x00400000 4) ∧
    ((0xFFFFFFFD : Word) = (withRegs [(3, 5)]).reg 3 + BitVec.ofInt 32 (0xFFF8 : Imm16).toInt ∧
      ¬ InSpace 0xFFFFFFFD 4) ∧
    (0x003FFFFF : Word) = (withRegs [(3, 0x003FFFFF)]).reg 3 + BitVec.ofInt 32 (0 : Imm16).toInt ∧
      InSpace 0x003FFFFF 4 ∧ ¬ ReadAllowed strict 0x003FFFFF 4 := by
  unfold InSpace ReadAllowed TouchesReserved; decide

/-- `SwStoresWord`, `MemWriteStoresLowBytes`: canonical memory and addresses that may be stored to, with both
parameters on and off. -/
theorem test_witness_SwStoresWord :
    (withRegs [(3, 0xFFFFFFFC)]).mem.wf = true ∧ InSpace ((withRegs [(3, 0xFFFFFFFC)]).reg 3) 4 ∧
    StoreAllowed Params.default ((withRegs [(3, 0xFFFFFFFC)]).reg 3) 4 ∧
    InSpace 0x10000000 4 ∧ StoreAllowed strict 0x10000000 4 ∧ StoreAllowed Params.default 0 4 := by
  unfold InSpace StoreAllowed ReadAllowed TouchesReserved TouchesText; decide

/-- `SwFaultsWriteNothing`, `MemWriteStoresLowBytes`: past the top; below TEXT_OFFSET; the first and the last
address whose word touches text. -/
theorem test_witness_SwFaultsWriteNothing :
    ¬ InSpace ((withRegs [(3, 0xFFFFFFFD)]).reg 3) 4 ∧
    (InSpace 0 4 ∧ ¬ StoreAllowed { Params.default with reservedLowFaults := true } 0 4) ∧
    (InSpace 0x003FFFFD 4 ∧ ¬ StoreAllowed { Params.default with textReadOnly := true } 0x003FFFFD 4) ∧
    InSpace 0x0FFFFFFF 4 ∧ ¬ StoreAllowed { Params.default with textReadOnly := true } 0x0FFFFFFF 4 := by
  unfold InSpace StoreAllowed ReadAllowed TouchesReserved TouchesText; decide

/-- `BranchesKeepAlignment`: each of the three branches answers a next state. -/
theorem test_witness_BranchesKeepAlignment :
    (∃ t, exec (.beq 1 1 0xFFFF) State.reset = .next t) ∧ (∃ t, exec (.bne 1 1 0x8000) State.reset = .next t) ∧
    ∃ t, exec (.bgtz 0 3 0x7FFF) (withRegs [(3, 1)]) = .next t := ⟨⟨_, rfl⟩, ⟨_, rfl⟩, ⟨_, rfl⟩⟩

/-- The statements of the services: a state with any code, and codes that name no service. -/
theorem test_witness_services :
    (∀ c : Word, (withRegs [(2, c)]).reg 2 = c) ∧
    ∀ c ∈ ([0, 2, 13, 0x101, 0xFFFFFFFF] : List Word), c.toNat ∉ [1, 4, 5, 8, 9, 10, 11, 12] :=
  ⟨fun _ => rfl, by simp⟩

/-- `ReadIntWritesTheDraw`: with a settled answer and with none. -/
theorem test_witness_ReadIntWritesTheDraw :
    (({ withRegs [(2, 5)] with draws := [7] } : State).reg 2 = 5 ∧
      ({ withRegs [(2, 5)] with draws := [7] } : State).draws = 7 :: []) ∧
    (withRegs [(2, 5)]).reg 2 = 5 ∧ (withRegs [(2, 5)]).draws = [] := by decide

/-- `PrintStringAppendsOrFaults`, `StringReadStopsAtFirstZero`: a string that ends at the last address, one with
no end, and a refused start. -/
theorem test_witness_PrintStringAppendsOrFaults :
    ((withBytes 0xFFFFFFFD [0x48, 0x69] (withRegs [(2, 4), (4, 0xFFFFFFFD)])).reg 2 = 4 ∧
      ReadAllowed strict 0xFFFFFFFD 1 ∧
      StringAt (withBytes 0xFFFFFFFD [0x48, 0x69] (withRegs [(2, 4), (4, 0xFFFFFFFD)])).mem 0xFFFFFFFD [0x48, 0x69]) ∧
    (ReadAllowed strict 0xFFFFFFFF 1 ∧ NoZeroFrom (Memory.writeBytes [] 0xFFFFFFFF [0x48]) 0xFFFFFFFF) ∧
    ¬ ReadAllowed strict 0x003FFFFF 1 ∧ ReadAllowed strict 0x00400000 1 := by
  refine ⟨?_, ⟨?_, ?_⟩, ?_⟩
  · unfold ReadAllowed TouchesReserved StringAt; decide
  · unfold ReadAllowed TouchesReserved; decide
  · intro k h1 h2
    obtain rfl : k = 0xFFFFFFFF := by omega
    decide
  · unfold ReadAllowed TouchesReserved; decide

/-- `MemReadIsBigEndian`, `MemWriteStoresLowBytes`, `RegionChecksRefuseExactlyTheirAccesses`: each width in and
out of bounds, allowed and refused. -/
theorem test_witness_accesses :
    (InSpace 0xFFFFFFFF Width.byte.bytes ∧ InSpace 0xFFFFFFFE Width.halfword.bytes ∧
      InSpace 0xFFFFFFFC Width.word.bytes) ∧
    (¬ InSpace 0xFFFFFFFF Width.halfword.bytes ∧ ¬ InSpace 0xFFFFFFFD Width.word.bytes) ∧
    (ReadAllowed strict 0x00400000 1 ∧ ¬ ReadAllowed strict 0x003FFFFF 1 ∧ ¬ ReadAllowed strict 0x003FFFFF 2) ∧
    ¬ StoreAllowed strict 0x0FFFFFFF 1 ∧ ¬ StoreAllowed strict 0x0FFFFFFF 2 ∧ StoreAllowed strict 0x10000000 2 := by
  unfold InSpace StoreAllowed ReadAllowed TouchesReserved TouchesText; decide

/-- `WordWriteIsReadBack`: a word written five bytes below the top. -/
theorem test_witness_WordWriteIsReadBack :
    Memory.wf [(0xFFFFFFFF, 9)] = true ∧
    memWrite Params.default [(0xFFFFFFFF, 9)] 0xFFFFFFFB .word 0x01020304 =
      .ok [(0xFFFFFFFB, 1), (0xFFFFFFFC, 2), (0xFFFFFFFD, 3), (0xFFFFFFFE, 4), (0xFFFFFFFF, 9)] ∧
    (0xFFFFFFFB : Word).toNat + 5 ≤ 2 ^ 32 := by decide

/-- `StoreIsSeenByTheNextFetch`: a store that does not fault. -/
theorem test_witness_StoreIsSeenByTheNextFetch :
    (withRegs [(3, 0x00400000)]).mem.wf = true ∧
    ∃ t, exec (.sw 3 0 5) (withRegs [(3, 0x00400000)]) = .next t ∧ t.status = .running :=
  ⟨by decide, _, rfl, by decide⟩

/-- `LaunchPlacesTheImage`: two blocks that overlap, and one that ends at the top. -/
theorem test_witness_LaunchPlacesTheImage :
    LaunchImage.wf [(0x00400000, [1, 2, 3]), (0x00400001, [0]), (0xFFFFFFFF, [7])] = true := by decide

/-- `SavedProgramLoadsAtTextOffset`: a program of two words. -/
theorem test_witness_SavedProgramLoadsAtTextOffset :
    0x00400000 + 4 * ([0x34020001, 0x30000000] : List Word).length ≤ 2 ^ 32 := by simp

/-- `SectionLoadsAtBasePlusOffset`: text that wraps to address 0, and data that ends at the top, in either header
order. -/
theorem test_witness_SectionLoadsAtBasePlusOffset :
    (0 : Nat) = (0x00400000 + headerValue true 0x00 0x00 0xC0 0xFF) % 2 ^ 32 ∧
    headerValue true 2 0 0 0 = ([7, 8] : List Byte).length ∧ 0 + ([7, 8] : List Byte).length ≤ 2 ^ 32 ∧
    (0xFFFFFFFE : Nat) = (0x10000000 + headerValue false 0xEF 0xFF 0xFF 0xFE) % 2 ^ 32 ∧
    headerValue false 0 0 0 2 = ([7, 8] : List Byte).length ∧ 0xFFFFFFFE + ([7, 8] : List Byte).length ≤ 2 ^ 32 := by
  simp [headerValue]

/-- `AssemblerPacksRTypeStatements`, `AssemblerPacksIAndJTypeStatements`: registers, a wrong count, and values on
both sides of each range. -/
theorem test_witness_assembler :
    ((9 : Nat) < 10 ∧ ([] : List (List Char)).length ≠ 3) ∧
    Assembler.readImmediate "-32768".toList = some (-32768) ∧ Assembler.readImmediate "32768".toList = some 32768 ∧
    Assembler.readDecimal "67108863".toList = some 67108863 ∧
    Assembler.readDecimal "67108864".toList = some 67108864 := by decide

/-- `TableOnlyMnemonicsFault`: an `addi` that assembles, and a state that fetches its word. -/
theorem test_witness_TableOnlyMnemonicsFault :
    Assembler.assembleStatement ⟨"addi".toList, ["$t1".toList, "$t2".toList, "5".toList]⟩ = .ok 0x20410005 ∧
    Fetches (at_ 0x00400000 0x20410005 State.reset) 0x20410005 := by
  unfold Fetches InSpace ReadAllowed TouchesReserved; decide

end Sys2Proof.Tests
end

/-! PROOFS. The statements about the bounds check (R43) and about MemRead (R44), with the laws of the memory primitives they are assembled from. -/
namespace Sys2Proof.Proofs.MemoryAccess
open Sys2Proof.Machine Sys2Proof.Claims

/-! ### The fault a primitive raises -/

/-- A read raises exactly the fault of its access checks. -/
theorem memRead_eq_error_iff {p : Params} {m : Memory} {access : Access} {a : Word} {n : Width} {f : CoreFault} :
    memRead p m access a n = .error f ↔ accessFault p access a n.bytes = some f :=
  ⟨memRead_error, memRead_of_fault⟩

/-- A write raises exactly the fault of its access checks. -/
theorem memWrite_eq_error_iff {p : Params} {m : Memory} {a v : Word} {n : Width} {f : CoreFault} :
    memWrite p m a n v = .error f ↔ accessFault p .store a n.bytes = some f :=
  ⟨memWrite_error, memWrite_of_fault⟩

/-- R43: the fault is MemBounds exactly when the access reaches past the top; the region checks cannot raise it. -/
theorem accessFault_eq_memBounds_iff {p : Params} {access : Access} {a : Word} {n : Nat} :
    accessFault p access a n = some (.memBounds a n access) ↔ maxMemory < a.toNat + n := by
  constructor
  · intro h
    rcases accessFault_eq_some h with ⟨houtside, -⟩ | ⟨-, -, hregion⟩
    · exact houtside
    · cases hregion
  · exact accessFault_of_outside

theorem memRead_eq_memBounds_iff {p : Params} {m : Memory} {access : Access} {a : Word} {n : Width} :
    memRead p m access a n = .error (.memBounds a n.bytes access) ↔ maxMemory < a.toNat + n.bytes :=
  memRead_eq_error_iff.trans accessFault_eq_memBounds_iff

theorem memWrite_eq_memBounds_iff {p : Params} {m : Memory} {a v : Word} {n : Width} :
    memWrite p m a n v = .error (.memBounds a n.bytes .store) ↔ maxMemory < a.toNat + n.bytes :=
  memWrite_eq_error_iff.trans accessFault_eq_memBounds_iff

/-! ### The addresses whose access reaches past the top, by width (R43) -/

theorem byte_never_past_top (a : Word) : ¬ maxMemory < a.toNat + Width.byte.bytes := by
  have hlt : a.toNat < 2 ^ 32 := a.isLt
  simp only [maxMemory, Width.bytes]
  omega

theorem halfword_past_top_iff (a : Word) : maxMemory < a.toNat + Width.halfword.bytes ↔ a = 0xFFFFFFFF := by
  simp only [maxMemory, Width.bytes]
  bv_omega

theorem word_past_top_iff (a : Word) :
    maxMemory < a.toNat + Width.word.bytes ↔ a = 0xFFFFFFFD ∨ a = 0xFFFFFFFE ∨ a = 0xFFFFFFFF := by
  simp only [maxMemory, Width.bytes]
  bv_omega

/-- Settles O46: each width's bounds fault, through the addresses that reach past the top. -/
theorem boundsFaultsExactlyAtTheTop : Obligations.BoundsFaultsExactlyAtTheTop := by
  unfold Obligations.BoundsFaultsExactlyAtTheTop
  intro p m access a v
  exact ⟨fun h => byte_never_past_top a (memRead_eq_memBounds_iff.mp h),
    fun h => byte_never_past_top a (memWrite_eq_memBounds_iff.mp h),
    memRead_eq_memBounds_iff.trans (halfword_past_top_iff a),
    memWrite_eq_memBounds_iff.trans (halfword_past_top_iff a),
    memRead_eq_memBounds_iff.trans (word_past_top_iff a),
    memWrite_eq_memBounds_iff.trans (word_past_top_iff a)⟩

/-! ### The model's checks and the claims' predicates -/

theorem width_bytes_pos (n : Width) : 0 < n.bytes := by
  cases n <;> decide

/-- R52: a read is allowed by its lowest byte alone. -/
theorem readAllowed_iff {p : Params} {a : Word} {n : Nat} (hn : 0 < n) :
    ReadAllowed p a n ↔ (p.reservedLowFaults = true → textOffset ≤ a.toNat) := by
  have hlowest : TouchesReserved a n ↔ a.toNat < textOffset := by
    constructor
    · rintro ⟨k, -, hk⟩
      exact Nat.lt_of_le_of_lt (Nat.le_add_right _ k) hk
    · exact fun h => ⟨0, hn, h⟩
  rw [ReadAllowed, hlowest, not_and, Nat.not_lt]

/-- R43, R52: the checks of an access that is no store, in the words of the claims. -/
theorem allowed_iff_of_ne_store {p : Params} {access : Access} {a : Word} {n : Nat} (hs : access ≠ .store)
    (hn : 0 < n) : Allowed p access a n ↔ InSpace a n ∧ ReadAllowed p a n := by
  rw [readAllowed_iff hn]
  constructor
  · rintro ⟨hbounds, hreserved, -⟩
    exact ⟨hbounds, hreserved⟩
  · rintro ⟨hbounds, hreserved⟩
    exact ⟨hbounds, hreserved, fun hstore => absurd hstore hs⟩

/-- R44: the value of a read is the big-endian number of its bytes. -/
theorem toNat_readWide (m : Memory) (a : Nat) (n : Width) : (m.readWide a n).toNat = bigEndian m a n.bytes := by
  cases n with
  | byte =>
    simp only [Memory.readWide, Width.bytes, bigEndian, BitVec.truncate_eq_setWidth, BitVec.toNat_setWidth,
      Nat.add_zero]
    omega
  | halfword =>
    simp only [Memory.readWide, Width.bytes, bigEndian, BitVec.truncate_eq_setWidth, BitVec.toNat_setWidth,
      toNat_append_eq, Nat.add_zero]
    omega
  | word =>
    simp only [Memory.readWide, Width.bytes, bigEndian, wordOfBytes_toNat, Nat.add_zero]
    omega

/-- Settles O47: the checks and the value, each by its own law. -/
theorem memReadIsBigEndian : Obligations.MemReadIsBigEndian := by
  unfold Obligations.MemReadIsBigEndian
  intro p m access a n haccess
  have hs : access ≠ .store := by rcases haccess with rfl | rfl <;> decide
  have hallowed := allowed_iff_of_ne_store (p := p) (a := a) hs (width_bytes_pos n)
  refine ⟨fun hin hread => ?value, fun hout => ?outside, fun hin hrefused => ?region⟩
  case value => exact ⟨_, memRead_of_allowed (hallowed.mpr ⟨hin, hread⟩), toNat_readWide m a.toNat n⟩
  case outside => exact memRead_eq_memBounds_iff.mpr (Nat.lt_of_not_le hout)
  case region => exact memRead_of_fault (accessFault_of_region hin fun h => hrefused (hallowed.mp h).2)

end Sys2Proof.Proofs.MemoryAccess

/-! PROOFS. The statements about the codec: the fields as bit slices (R71), the packers (R75), and the decoder's choice of the instruction (R76, R77, R78). -/
namespace Sys2Proof.Proofs.Codec

/-! ### The fields of a word (R71) -/

/-- Settles O3: each field by its own law. -/
theorem fieldsAreBitSlices : Obligations.FieldsAreBitSlices := by
  unfold Obligations.FieldsAreBitSlices
  intro w
  exact ⟨opcodeOf_toNat w, rsOf_toNat w, rtOf_toNat w, rdOf_toNat w, shamtOf_toNat w, functOf_toNat w,
    immOf_toNat w, targetOf_toNat w⟩

/-! ### The packers (R75) -/

theorem createR_toNat (f : RFields) :
    (createR f).toNat = f.op % 64 * 2 ^ 26 + f.rs % 32 * 2 ^ 21 + f.rt % 32 * 2 ^ 16 + f.rd % 32 * 2 ^ 11 +
      f.shamt % 32 * 2 ^ 6 + f.funct % 64 := by
  rw [createR, packR_toNat]
  simp only [BitVec.toNat_ofNat, Nat.reducePow]

theorem createI_toNat (f : IFields) :
    (createI f).toNat = f.op % 64 * 2 ^ 26 + f.rs % 32 * 2 ^ 21 + f.rt % 32 * 2 ^ 16 + f.imm % 65536 := by
  rw [createI, packI_toNat]
  simp only [BitVec.toNat_ofNat, Nat.reducePow]

theorem createJ_toNat (f : JFields) : (createJ f).toNat = f.op % 64 * 2 ^ 26 + f.target % 2 ^ 26 := by
  rw [createJ, packJ_toNat]
  simp only [BitVec.toNat_ofNat, Nat.reducePow]

theorem rFields_fits_iff {f : RFields} :
    f.fits = true ↔ f.op < 64 ∧ f.rs < 32 ∧ f.rt < 32 ∧ f.rd < 32 ∧ f.shamt < 32 ∧ f.funct < 64 := by
  simp only [RFields.fits, Bool.and_eq_true, decide_eq_true_eq, and_assoc]

theorem iFields_fits_iff {f : IFields} :
    f.fits = true ↔ f.op < 64 ∧ f.rs < 32 ∧ f.rt < 32 ∧ f.imm < 65536 := by
  simp only [IFields.fits, Bool.and_eq_true, decide_eq_true_eq, and_assoc]

theorem jFields_fits_iff {f : JFields} : f.fits = true ↔ f.op < 64 ∧ f.target < 2 ^ 26 := by
  simp only [JFields.fits, Bool.and_eq_true, decide_eq_true_eq]

theorem fields_createR {f : RFields} (h : f.fits = true) :
    RFields.mk (opcodeOf (createR f)).toNat (rsOf (createR f)).toNat (rtOf (createR f)).toNat
      (rdOf (createR f)).toNat (shamtOf (createR f)).toNat (functOf (createR f)).toNat = f := by
  obtain ⟨hop, hrs, hrt, hrd, hshamt, hfunct⟩ := rFields_fits_iff.mp h
  simp (disch := omega) only [createR, opcodeOf_packR, rsOf_packR, rtOf_packR, rdOf_packR, shamtOf_packR,
    functOf_packR, BitVec.toNat_ofNat, Nat.mod_eq_of_lt]

theorem fields_createI {f : IFields} (h : f.fits = true) :
    IFields.mk (opcodeOf (createI f)).toNat (rsOf (createI f)).toNat (rtOf (createI f)).toNat
      (immOf (createI f)).toNat = f := by
  obtain ⟨hop, hrs, hrt, himm⟩ := iFields_fits_iff.mp h
  simp (disch := omega) only [createI, opcodeOf_packI, rsOf_packI, rtOf_packI, immOf_packI, BitVec.toNat_ofNat,
    Nat.mod_eq_of_lt]

theorem fields_createJ {f : JFields} (h : f.fits = true) :
    JFields.mk (opcodeOf (createJ f)).toNat (targetOf (createJ f)).toNat = f := by
  obtain ⟨hop, htarget⟩ := jFields_fits_iff.mp h
  simp (disch := omega) only [createJ, opcodeOf_packJ, targetOf_packJ, BitVec.toNat_ofNat, Nat.mod_eq_of_lt]

/-- Settles O4: the packed word as a number, and the fields of a packed word, by format. -/
theorem packersRoundTrip : Obligations.PackersRoundTrip := by
  unfold Obligations.PackersRoundTrip
  exact ⟨createR_toNat, createI_toNat, createJ_toNat, fun _ => fields_createR, fun _ => fields_createI,
    fun _ => fields_createJ⟩

/-! ### The decoder's choice (R76, R77, R78) -/

/-- The conditions of the verdicts exclude each other, so the decoder answers the one whose condition holds. -/
theorem decode_of_verdict {w : Word} {r : Except IllegalWord Instr} (h : Verdict w r) : decode w = r := by
  cases h with
  | unknownOpcode ho =>
    simp only [List.mem_cons, List.not_mem_nil, or_false, not_or] at ho
    simp only [decode, ho, if_false]
  | unknownFunct ho hf =>
    simp only [List.mem_cons, List.not_mem_nil, or_false, not_or] at hf
    simp only [decode, decodeSpecial, ho, hf, if_true, if_false]
  | add ho hf | sub ho hf | and ho hf | or ho hf | syscallRtype ho hf =>
    simp [decode, decodeSpecial, withR, ho, hf]
  | _ ho => simp [decode, withI, withJ, ho]

theorem opcodeOf_eq_iff {w : Word} {c : Code6} : opcodeOf w = c ↔ w.toNat / 2 ^ 26 = c.toNat := by
  rw [← BitVec.toNat_inj, opcodeOf_toNat]

theorem functOf_eq_iff {w : Word} {c : Code6} : functOf w = c ↔ w.toNat % 2 ^ 6 = c.toNat := by
  rw [← BitVec.toNat_inj, functOf_toNat]

/-- A code whose number is outside a list is none of the codes with numbers in that list. -/
theorem not_mem_of_toNat {c : Code6} {n : Nat} {codes : List Code6} {numbers : List Nat} (hc : c.toNat = n)
    (hsub : codes.map BitVec.toNat ⊆ numbers) (hn : n ∉ numbers) : c ∉ codes :=
  fun hmem => hn (hc ▸ hsub (List.mem_map_of_mem hmem))

/-- Settles O5: the number of the opcode, and of the funct under opcode 0, is the condition of one verdict. -/
theorem opcodeAndFunctSelectTheInstruction : Obligations.OpcodeAndFunctSelectTheInstruction := by
  unfold Obligations.OpcodeAndFunctSelectTheInstruction
  intro w
  refine ⟨fun ho => ?special, ?primary⟩
  case special =>
    have ho : opcodeOf w = 0x00 := opcodeOf_eq_iff.mpr ho
    exact ⟨fun hf => decode_of_verdict (.add ho (functOf_eq_iff.mpr hf)),
      fun hf => decode_of_verdict (.sub ho (functOf_eq_iff.mpr hf)),
      fun hf => decode_of_verdict (.and ho (functOf_eq_iff.mpr hf)),
      fun hf => decode_of_verdict (.or ho (functOf_eq_iff.mpr hf)),
      fun hf => decode_of_verdict (.syscallRtype ho (functOf_eq_iff.mpr hf)),
      fun hf => decode_of_verdict (.unknownFunct ho (not_mem_of_toNat (functOf_toNat w) (by decide) hf))⟩
  case primary =>
    exact ⟨fun ho => decode_of_verdict (.syscall (opcodeOf_eq_iff.mpr ho)),
      fun ho => decode_of_verdict (.lw (opcodeOf_eq_iff.mpr ho)),
      fun ho => decode_of_verdict (.sw (opcodeOf_eq_iff.mpr ho)),
      fun ho => decode_of_verdict (.lui (opcodeOf_eq_iff.mpr ho)),
      fun ho => decode_of_verdict (.ori (opcodeOf_eq_iff.mpr ho)),
      fun ho => decode_of_verdict (.nori (opcodeOf_eq_iff.mpr ho)),
      fun ho => decode_of_verdict (.slti (opcodeOf_eq_iff.mpr ho)),
      fun ho => decode_of_verdict (.beq (opcodeOf_eq_iff.mpr ho)),
      fun ho => decode_of_verdict (.bne (opcodeOf_eq_iff.mpr ho)),
      fun ho => decode_of_verdict (.bgtz (opcodeOf_eq_iff.mpr ho)),
      fun ho => decode_of_verdict (.j (opcodeOf_eq_iff.mpr ho)),
      fun ho => decode_of_verdict (.jal (opcodeOf_eq_iff.mpr ho)),
      fun ho => decode_of_verdict (.addi (opcodeOf_eq_iff.mpr ho)),
      fun ho => decode_of_verdict (.addiu (opcodeOf_eq_iff.mpr ho)),
      fun ho => decode_of_verdict (.unknownOpcode (not_mem_of_toNat (opcodeOf_toNat w) (by decide) ho))⟩

end Sys2Proof.Proofs.Codec

/-! PROOFS. The frame of a register write, which every instruction that only writes a register shares. -/
namespace Sys2Proof.Proofs.Frames
open Sys2Proof.Machine Sys2Proof.Claims

/-- R11, R21: a register write changes that register alone, and nothing when it is register 0. -/
theorem onlyRegister_setReg (s : State) (d : RegIdx) (v : Word) : OnlyRegister s (s.setReg d v) d v :=
  ⟨s.reg_setReg d v, s.setReg_pc d v, s.setReg_status d v, fun a => congrArg (·.read a) (s.setReg_mem d v),
    ⟨s.setReg_hi d v, s.setReg_lo d v, s.setReg_params d v⟩,
    ⟨s.setReg_out d v, s.setReg_draws d v, s.setReg_drawCount d v⟩⟩

end Sys2Proof.Proofs.Frames

/-! PROOFS. The statements about `ori` (R151), `nori` (R152) and `slti` (R154). -/
namespace Sys2Proof.Proofs.ITypeAlu
open Sys2Proof.Machine Sys2Proof.Claims Sys2Proof.Proofs.Codec Sys2Proof.Proofs.Frames

/-! ### The register write of each instruction -/

theorem exec_ori (rt rs : RegIdx) (imm : Imm16) (s : State) :
    exec (.ori rt rs imm) s = .next (s.setReg rt (s.reg rs ||| zext16 imm)) := rfl

theorem exec_nori (rt rs : RegIdx) (imm : Imm16) (s : State) :
    exec (.nori rt rs imm) s = .next (s.setReg rt (~~~(s.reg rs ||| zext16 imm))) := rfl

theorem exec_slti (rt rs : RegIdx) (imm : Imm16) (s : State) :
    exec (.slti rt rs imm) s = .next (s.setReg rt (boolWord (signedLess (s.reg rs) (sext16 imm)))) := rfl

/-! ### The bits of the zero-extended immediate (R151, R152) -/

/-- The bits past the immediate are zero on both sides, so the equation needs no bound on `k`. -/
theorem getLsbD_zext16 (imm : Imm16) (k : Nat) : (zext16 imm).getLsbD k = imm.getLsbD k := by
  rw [zext16, BitVec.zeroExtend_eq_setWidth, BitVec.getLsbD_setWidth]
  by_cases hk : k < 32
  · rw [decide_eq_true hk, Bool.true_and]
  · rw [decide_eq_false hk, Bool.false_and, BitVec.getLsbD_of_ge imm k (by omega)]

theorem getLsbD_or_zext16 (a : Word) (imm : Imm16) (k : Nat) :
    (a ||| zext16 imm).getLsbD k = (a.getLsbD k || imm.getLsbD k) := by
  rw [BitVec.getLsbD_or, getLsbD_zext16]

theorem getLsbD_not_or_zext16 (a : Word) (imm : Imm16) {k : Nat} (hk : k < 32) :
    (~~~(a ||| zext16 imm)).getLsbD k = !(a.getLsbD k || imm.getLsbD k) := by
  rw [BitVec.getLsbD_not, decide_eq_true hk, Bool.true_and, getLsbD_or_zext16]

/-- Settles O29: each instruction is one register write, whose bits are those of the extended immediate's laws. -/
theorem oriNoriWorkBitByBit : Obligations.OriNoriWorkBitByBit := by
  unfold Obligations.OriNoriWorkBitByBit
  refine ⟨fun w ho => decode_of_verdict (.ori ho), fun w ho => decode_of_verdict (.nori ho),
    fun rt rs imm s => ?ori, fun rt rs imm s => ?nori⟩
  case ori =>
    exact ⟨_, _, exec_ori rt rs imm s, getLsbD_or_zext16 (s.reg rs) imm, onlyRegister_setReg s rt _⟩
  case nori =>
    exact ⟨_, _, exec_nori rt rs imm s, fun _ => getLsbD_not_or_zext16 (s.reg rs) imm,
      onlyRegister_setReg s rt _⟩

/-! ### The signed comparison with the immediate (R154) -/

/-- Sign extension keeps the immediate's signed value, so the comparison of words is that of the numbers. -/
theorem boolWord_signedLess_sext16 (a : Word) (imm : Imm16) :
    boolWord (signedLess a (sext16 imm)) = if a.toInt < imm.toInt then 1 else 0 := by
  simp only [boolWord, signedLess_eq_true, sext16_toInt]

/-- Settles O30: `slti` is one register write, of the comparison's result. -/
theorem sltiComparesSigned : Obligations.SltiComparesSigned := by
  unfold Obligations.SltiComparesSigned
  refine ⟨fun w ho => decode_of_verdict (.slti ho), fun rt rs imm s => ⟨_, exec_slti rt rs imm s, ?_⟩⟩
  rw [boolWord_signedLess_sext16]
  exact onlyRegister_setReg s rt _

end Sys2Proof.Proofs.ITypeAlu

/-! PROOFS. The statement about `jal` (R171). -/
namespace Sys2Proof.Proofs.Jump
open Sys2Proof.Machine Sys2Proof.Claims Sys2Proof.Proofs.Codec Sys2Proof.Proofs.Frames

theorem exec_jal (target : Target26) (s : State) :
    exec (.jal target) s = .next ((s.setReg linkReg s.pc).setPc (jumpTarget target)) := rfl

theorem linkReg_ne_zero : linkReg ≠ 0 := by decide

/-- Settles O38: the frame is that of the link's register write, and the jump after it touches only `pc`. -/
theorem jalLinksAndJumps : Obligations.JalLinksAndJumps := by
  unfold Obligations.JalLinksAndJumps
  refine ⟨fun w ho => decode_of_verdict (.jal ho), fun target s => ⟨_, exec_jal target s, ?_⟩⟩
  obtain ⟨hreg, -, hstatus, hmem, hspecials, hhost⟩ := onlyRegister_setReg s linkReg s.pc
  have hlink : (s.setReg linkReg s.pc).reg 31 = s.pc := (hreg linkReg).trans (if_pos ⟨rfl, linkReg_ne_zero⟩)
  have hothers (r : RegIdx) (hr : r ≠ 31) : (s.setReg linkReg s.pc).reg r = s.reg r :=
    (hreg r).trans (if_neg fun h => hr h.1)
  exact ⟨jumpTarget_toNat target, hlink, hothers, hstatus, hmem, hspecials, hhost⟩

end Sys2Proof.Proofs.Jump

/-! PROOFS. The round trips of the codec (R71, R76, R77, R78) and the opcode table against the decoder (R81). -/
namespace Sys2Proof.Proofs.RoundTrip
open Sys2Proof.Proofs.Codec

/-! ### Decode and encode (R78) -/

/-- The word of an instruction meets the condition of that instruction's verdict: its fields are read back from
the packed word by the laws of `Laws/Codec.lean`. -/
theorem encode_verdict (i : Instr) : Verdict (encode i) (.ok i) := by
  cases i with
  | add rd rs rt shamt => simpa [encode] using Verdict.add (w := encode (.add rd rs rt shamt))
  | sub rd rs rt shamt => simpa [encode] using Verdict.sub (w := encode (.sub rd rs rt shamt))
  | and rd rs rt shamt => simpa [encode] using Verdict.and (w := encode (.and rd rs rt shamt))
  | or rd rs rt shamt => simpa [encode] using Verdict.or (w := encode (.or rd rs rt shamt))
  | syscallRtype rd rs rt shamt =>
    simpa [encode] using Verdict.syscallRtype (w := encode (.syscallRtype rd rs rt shamt))
  | syscall rt rs imm => simpa [encode] using Verdict.syscall (w := encode (.syscall rt rs imm))
  | lw rt rs imm => simpa [encode] using Verdict.lw (w := encode (.lw rt rs imm))
  | sw rt rs imm => simpa [encode] using Verdict.sw (w := encode (.sw rt rs imm))
  | lui rt rs imm => simpa [encode] using Verdict.lui (w := encode (.lui rt rs imm))
  | ori rt rs imm => simpa [encode] using Verdict.ori (w := encode (.ori rt rs imm))
  | nori rt rs imm => simpa [encode] using Verdict.nori (w := encode (.nori rt rs imm))
  | slti rt rs imm => simpa [encode] using Verdict.slti (w := encode (.slti rt rs imm))
  | beq rt rs imm => simpa [encode] using Verdict.beq (w := encode (.beq rt rs imm))
  | bne rt rs imm => simpa [encode] using Verdict.bne (w := encode (.bne rt rs imm))
  | bgtz rt rs imm => simpa [encode] using Verdict.bgtz (w := encode (.bgtz rt rs imm))
  | j target => simpa [encode] using Verdict.j (w := encode (.j target))
  | jal target => simpa [encode] using Verdict.jal (w := encode (.jal target))
  | addi rt rs imm => simpa [encode] using Verdict.addi (w := encode (.addi rt rs imm))
  | addiu rt rs imm => simpa [encode] using Verdict.addiu (w := encode (.addiu rt rs imm))

theorem decode_encode (i : Instr) : decode (encode i) = .ok i := decode_of_verdict (encode_verdict i)

/-- Settles O1: the verdict on the encoded word, over the word and over its bytes. -/
theorem decodeOfEncodeIsTheInstruction : Obligations.DecodeOfEncodeIsTheInstruction := by
  unfold Obligations.DecodeOfEncodeIsTheInstruction
  intro i
  have hbytes := decodeBytes_wordBytes (encode i) []
  rw [List.append_nil, decode_encode] at hbytes
  exact ⟨decode_encode i, hbytes⟩

theorem encode_of_verdict {w : Word} {i : Instr} (h : Verdict w (.ok i)) : encode i = w := by
  cases h with
  | add ho hf | sub ho hf | and ho hf | or ho hf | syscallRtype ho hf => exact packR_eq ho hf
  | j ho | jal ho => exact packJ_eq ho
  | _ ho => exact packI_eq ho

theorem encode_of_decode {w : Word} {i : Instr} (h : decode w = .ok i) : encode i = w :=
  encode_of_verdict (h ▸ decode_verdict w)

/-- Settles O2: a word is the packing of the fields its verdict reads. -/
theorem encodeOfDecodeIsTheWord : Obligations.EncodeOfDecodeIsTheWord := by
  unfold Obligations.EncodeOfDecodeIsTheWord
  exact fun _ _ => encode_of_decode

/-- Settles O7: the decoder runs on each listed word. -/
theorem listedWordsDecode : Obligations.ListedWordsDecode := by
  unfold Obligations.ListedWordsDecode
  decide

/-! ### The opcode table (R81) -/

theorem covers_iff {row : TableRow} {w : Word} : row.covers w = true ↔ w &&& row.mask = row.pattern := by
  rw [TableRow.covers, beq_iff_eq]

/-- Any two rows of the table differ in a bit that both masks fix. -/
theorem rows_differ_under_masks : ∀ r₁ ∈ opcodeTable, ∀ r₂ ∈ opcodeTable,
    r₁.pattern &&& r₂.mask = r₂.pattern &&& r₁.mask → r₁ = r₂ := by
  decide

theorem row_unique {w : Word} {r₁ r₂ : TableRow} (h₁ : r₁ ∈ opcodeTable) (h₂ : r₂ ∈ opcodeTable)
    (hc₁ : r₁.covers w = true) (hc₂ : r₂.covers w = true) : r₁ = r₂ := by
  refine rows_differ_under_masks r₁ h₁ r₂ h₂ ?_
  rw [← covers_iff.mp hc₁, ← covers_iff.mp hc₂, BitVec.and_assoc, BitVec.and_comm r₁.mask, ← BitVec.and_assoc]

theorem specialRow_covers {w : Word} {row : TableRow} {funct : Code6} (ho : opcodeOf w = 0x00)
    (hf : functOf w = funct) (hmask : row.mask = 0xFC00003F) (hrow : packR 0 0 0 0 0 funct = row.pattern) :
    row.covers w = true := by
  rw [covers_iff, hmask, and_specialMask, ho, hf]
  exact hrow

theorem primaryRow_covers {w : Word} {row : TableRow} {opcode : Code6} (ho : opcodeOf w = opcode)
    (hmask : row.mask = 0xFC000000) (hrow : packI opcode 0 0 0 = row.pattern) : row.covers w = true := by
  rw [covers_iff, hmask, and_primaryMask, ho]
  exact hrow

/-- Each verdict's condition is that of the row with the instruction's mnemonic. -/
theorem row_of_verdict {w : Word} {i : Instr} (h : Verdict w (.ok i)) :
    ∃ r ∈ opcodeTable, r.covers w = true ∧ r.mnemonic = i.mnemonic := by
  cases h with
  | add ho hf => exact ⟨⟨"add", 0x00000020, 0xFC00003F⟩, by decide, specialRow_covers ho hf rfl (by decide), rfl⟩
  | sub ho hf => exact ⟨⟨"sub", 0x00000022, 0xFC00003F⟩, by decide, specialRow_covers ho hf rfl (by decide), rfl⟩
  | and ho hf => exact ⟨⟨"and", 0x00000024, 0xFC00003F⟩, by decide, specialRow_covers ho hf rfl (by decide), rfl⟩
  | or ho hf => exact ⟨⟨"or", 0x00000025, 0xFC00003F⟩, by decide, specialRow_covers ho hf rfl (by decide), rfl⟩
  | syscallRtype ho hf =>
    exact ⟨⟨"syscall_rtype", 0x0000000C, 0xFC00003F⟩, by decide, specialRow_covers ho hf rfl (by decide), rfl⟩
  | syscall ho => exact ⟨⟨"syscall", 0x30000000, 0xFC000000⟩, by decide, primaryRow_covers ho rfl (by decide), rfl⟩
  | lw ho => exact ⟨⟨"lw", 0x8C000000, 0xFC000000⟩, by decide, primaryRow_covers ho rfl (by decide), rfl⟩
  | sw ho => exact ⟨⟨"sw", 0xAC000000, 0xFC000000⟩, by decide, primaryRow_covers ho rfl (by decide), rfl⟩
  | lui ho => exact ⟨⟨"lui", 0x3C000000, 0xFC000000⟩, by decide, primaryRow_covers ho rfl (by decide), rfl⟩
  | ori ho => exact ⟨⟨"ori", 0x34000000, 0xFC000000⟩, by decide, primaryRow_covers ho rfl (by decide), rfl⟩
  | nori ho => exact ⟨⟨"nori", 0x38000000, 0xFC000000⟩, by decide, primaryRow_covers ho rfl (by decide), rfl⟩
  | slti ho => exact ⟨⟨"slti", 0x28000000, 0xFC000000⟩, by decide, primaryRow_covers ho rfl (by decide), rfl⟩
  | beq ho => exact ⟨⟨"beq", 0x10000000, 0xFC000000⟩, by decide, primaryRow_covers ho rfl (by decide), rfl⟩
  | bne ho => exact ⟨⟨"bne", 0x14000000, 0xFC000000⟩, by decide, primaryRow_covers ho rfl (by decide), rfl⟩
  | bgtz ho => exact ⟨⟨"bgtz", 0x1C000000, 0xFC000000⟩, by decide, primaryRow_covers ho rfl (by decide), rfl⟩
  | addi ho => exact ⟨⟨"addi", 0x20000000, 0xFC000000⟩, by decide, primaryRow_covers ho rfl (by decide), rfl⟩
  | addiu ho => exact ⟨⟨"addiu", 0x24000000, 0xFC000000⟩, by decide, primaryRow_covers ho rfl (by decide), rfl⟩
  | j ho => exact ⟨⟨"j", 0x08000000, 0xFC000000⟩, by decide, primaryRow_covers ho rfl (by decide), rfl⟩
  | jal ho => exact ⟨⟨"jal", 0x0C000000, 0xFC000000⟩, by decide, primaryRow_covers ho rfl (by decide), rfl⟩

theorem specialRow_codes : ∀ r ∈ specialRows,
    r.mask = 0xFC00003F ∧ opcodeOf r.pattern = 0x00 ∧ functOf r.pattern ∈ [0x20, 0x22, 0x24, 0x25, 0x0C] := by
  decide

theorem primaryRow_codes : ∀ r ∈ primaryRows, r.mask = 0xFC000000 ∧
    opcodeOf r.pattern ∈ [0x0C, 0x23, 0x2B, 0x0F, 0x0D, 0x0E, 0x0A, 0x04, 0x05, 0x07, 0x02, 0x03, 0x08, 0x09] := by
  decide

theorem codes_of_specialRow {w : Word} {r : TableRow} (hr : r ∈ specialRows) (hc : r.covers w = true) :
    opcodeOf w = 0x00 ∧ functOf w ∈ [0x20, 0x22, 0x24, 0x25, 0x0C] := by
  obtain ⟨hmask, ho, hf⟩ := specialRow_codes r hr
  rw [← covers_iff.mp hc, hmask, and_specialMask] at ho hf
  rw [opcodeOf_packR] at ho
  rw [functOf_packR] at hf
  exact ⟨ho, hf⟩

theorem opcode_of_primaryRow {w : Word} {r : TableRow} (hr : r ∈ primaryRows) (hc : r.covers w = true) :
    opcodeOf w ∈ [0x0C, 0x23, 0x2B, 0x0F, 0x0D, 0x0E, 0x0A, 0x04, 0x05, 0x07, 0x02, 0x03, 0x08, 0x09] := by
  obtain ⟨hmask, ho⟩ := primaryRow_codes r hr
  rwa [← covers_iff.mp hc, hmask, and_primaryMask, opcodeOf_packI] at ho

/-- The codes of every row are codes that the decoder accepts. -/
theorem no_row_of_verdict {w : Word} {e : IllegalWord} (h : Verdict w (.error e)) {r : TableRow}
    (hr : r ∈ opcodeTable) : r.covers w = false := by
  rw [Bool.eq_false_iff]
  intro hc
  rcases List.mem_append.mp hr with hr | hr
  · obtain ⟨ho, hf⟩ := codes_of_specialRow hr hc
    cases h with
    | unknownFunct _ hf' => exact hf' hf
    | unknownOpcode ho' => exact ho' (ho ▸ List.mem_cons_self)
  · have ho := opcode_of_primaryRow hr hc
    cases h with
    | unknownFunct ho' _ => exact absurd (ho' ▸ ho) (by decide)
    | unknownOpcode ho' => exact ho' (List.mem_cons_of_mem _ ho)

/-- Settles O6: the rows exclude each other by their masked bits; the rest follows from the decoder's verdicts. -/
theorem tableRowsAreDisjointAndDecide : Obligations.TableRowsAreDisjointAndDecide := by
  unfold Obligations.TableRowsAreDisjointAndDecide
  refine ⟨fun w r₁ h₁ r₂ h₂ => row_unique h₁ h₂, fun w i h => ?_, fun w e h r => ?_⟩
  · exact row_of_verdict (h ▸ decode_verdict w)
  · exact no_row_of_verdict (h ▸ decode_verdict w)

end Sys2Proof.Proofs.RoundTrip

/-! PROOFS. The frames of the other updates of the state, and what each instruction does: the effects of
`Laws/Exec.lean` with the instructions that can have them. -/
namespace Sys2Proof.Proofs.Meanings
open Sys2Proof.Machine Sys2Proof.Claims Sys2Proof.Proofs.MemoryAccess

/-! ### Frames -/

theorem onlyStatus_setStatus (s : State) (st : RunStatus) : OnlyStatus s (s.setStatus st) st :=
  ⟨rfl, rfl, fun _ => rfl, fun _ => rfl, ⟨rfl, rfl, rfl⟩, rfl, rfl, rfl⟩

theorem onlyPc_setPc (s : State) (target : Word) : OnlyPc s (s.setPc target) target :=
  ⟨rfl, rfl, fun _ => rfl, fun _ => rfl, ⟨rfl, rfl, rfl⟩, rfl, rfl, rfl⟩

theorem onlyPc_self (s : State) : OnlyPc s s s.pc := onlyPc_setPc s s.pc

theorem onlyOutput_hostWrite (s : State) (bytes : List Byte) : OnlyOutput s (hostWrite bytes s) bytes :=
  ⟨rfl, rfl, rfl, fun _ => rfl, fun _ => rfl, ⟨rfl, rfl, rfl⟩, rfl, rfl⟩

/-- A fault's frame, for an instruction that raises it. -/
theorem onlyStatus_raise (f : CoreFault) (s : State) :
    ∃ t, raise f s = .next t ∧ OnlyStatus s t (.faulted f) :=
  ⟨_, rfl, onlyStatus_setStatus s _⟩

/-! ### The services of `syscall` -/

section
variable {s : State}

theorem execSyscall_printInt (h : s.reg 2 = 1) : execSyscall s = servicePrintInt s := if_pos h

theorem execSyscall_printString (h : s.reg 2 = 4) : execSyscall s = servicePrintString s := by
  rw [execSyscall, serviceReg, h]; rfl

theorem execSyscall_readInt (h : s.reg 2 = 5) : execSyscall s = serviceReadInt s := by
  rw [execSyscall, serviceReg, h]; rfl

theorem execSyscall_exit (h : s.reg 2 = 10) : execSyscall s = serviceExit s := by
  rw [execSyscall, serviceReg, h]; rfl

theorem execSyscall_printChar (h : s.reg 2 = 11) : execSyscall s = servicePrintChar s := by
  rw [execSyscall, serviceReg, h]; rfl

theorem execSyscall_noEffect (h : s.reg 2 = 8 ∨ s.reg 2 = 9 ∨ s.reg 2 = 12) : execSyscall s = .next s := by
  rcases h with h | h | h <;> rw [execSyscall, serviceReg, h] <;> rfl

theorem execSyscall_unknown (h : s.reg 2 ∉ ([1, 4, 5, 8, 9, 10, 11, 12] : List Word)) :
    execSyscall s = raise (.unknownSyscall (s.reg 2)) s := by
  simp only [List.mem_cons, List.not_mem_nil, or_false, not_or] at h
  simp only [execSyscall, serviceReg, h, if_false]

end

/-! ### What each instruction does -/

/-- The effects of an instruction on the state after the fetch, each with the instructions that can have it. -/
inductive Meaning (s : State) : Instr → State → Prop where
  | register {i : Instr} {d : RegIdx} (v : Word) (hd : destination i s = some d) : Meaning s i (s.setReg d v)
  | jump (i : Instr) (target : Word) : Meaning s i (s.setPc target)
  | link (field : Target26) (target : Word) : Meaning s (.jal field) ((s.setReg linkReg s.pc).setPc target)
  | store (rt rs : RegIdx) (imm : Imm16) (m : Memory) : Meaning s (.sw rt rs imm) (s.setMem m)
  | output (i : Instr) (bytes : List Byte) : Meaning s i (hostWrite bytes s)
  | nothing (i : Instr) : Meaning s i s
  | draw (rt rs : RegIdx) (imm : Imm16) (v : Word) (h : s.reg 2 = 5) :
    Meaning s (.syscall rt rs imm) (s.takeDraw.setReg 2 v)
  | exit (rt rs : RegIdx) (imm : Imm16) (h : s.reg 2 = 10) :
    Meaning s (.syscall rt rs imm) (s.setStatus (.halted (s.reg 4)))
  | fault (i : Instr) (f : CoreFault) : Meaning s i (s.setStatus (.faulted f))

theorem exec_lw (rt rs : RegIdx) (imm : Imm16) (s : State) : exec (.lw rt rs imm) s = execLw rt rs imm s := rfl

theorem exec_sw (rt rs : RegIdx) (imm : Imm16) (s : State) : exec (.sw rt rs imm) s = execSw rt rs imm s := rfl

theorem exec_syscall (rt rs : RegIdx) (imm : Imm16) (s : State) :
    exec (.syscall rt rs imm) s = execSyscall s := rfl

theorem branchIf_meaning (i : Instr) (c : Bool) (imm : Imm16) (s : State) :
    ∃ t, branchIf c imm s = .next t ∧ Meaning s i t := by
  cases c
  · exact ⟨s, rfl, .nothing i⟩
  · exact ⟨_, rfl, .jump i _⟩

theorem lw_meaning (rt rs : RegIdx) (imm : Imm16) (s : State) :
    ∃ t, exec (.lw rt rs imm) s = .next t ∧ Meaning s (.lw rt rs imm) t := by
  rw [exec_lw, execLw]
  cases loadWord s (loadAddress rs imm s) with
  | ok v => exact ⟨_, rfl, .register v rfl⟩
  | error f => exact ⟨_, rfl, .fault _ f⟩

theorem sw_meaning (rt rs : RegIdx) (imm : Imm16) (s : State) :
    ∃ t, exec (.sw rt rs imm) s = .next t ∧ Meaning s (.sw rt rs imm) t := by
  rw [exec_sw, execSw, storeWord]
  cases memWrite s.params s.mem (storeAddress rt s) .word (storeValue rs imm s) with
  | ok m => exact ⟨_, rfl, .store rt rs imm m⟩
  | error f => exact ⟨_, rfl, .fault _ f⟩

theorem servicePrintString_meaning (i : Instr) (s : State) :
    ∃ t, servicePrintString s = .next t ∧ Meaning s i t := by
  unfold servicePrintString
  cases memReadString s.params s.mem (s.reg argumentReg) with
  | ok bytes => exact ⟨_, rfl, .output i bytes⟩
  | error f => exact ⟨_, rfl, .fault i f⟩

theorem syscall_meaning (rt rs : RegIdx) (imm : Imm16) (s : State) :
    ∃ t, exec (.syscall rt rs imm) s = .next t ∧ Meaning s (.syscall rt rs imm) t := by
  rw [exec_syscall, execSyscall]
  split_ifs with h1 h4 h5 h10 h11 h8 h9 h12
  · exact ⟨_, rfl, .output _ _⟩
  · exact servicePrintString_meaning _ s
  · exact ⟨_, rfl, .draw rt rs imm _ h5⟩
  · exact ⟨_, rfl, .exit rt rs imm h10⟩
  · exact ⟨_, rfl, .output _ _⟩
  · exact ⟨_, rfl, .nothing _⟩
  · exact ⟨_, rfl, .nothing _⟩
  · exact ⟨_, rfl, .nothing _⟩
  · exact ⟨_, rfl, .fault _ _⟩

theorem exec_meaning (i : Instr) (s : State) : ∃ t, exec i s = .next t ∧ Meaning s i t := by
  cases i with
  | syscall rt rs imm => exact syscall_meaning rt rs imm s
  | lw rt rs imm => exact lw_meaning rt rs imm s
  | sw rt rs imm => exact sw_meaning rt rs imm s
  | beq rt rs imm | bne rt rs imm | bgtz rt rs imm => exact branchIf_meaning _ _ imm s
  | j target => exact ⟨_, rfl, .jump _ _⟩
  | jal target => exact ⟨_, rfl, .link _ _⟩
  | syscallRtype | addi | addiu => exact ⟨_, rfl, .fault _ _⟩
  | _ => exact ⟨_, rfl, .register _ rfl⟩

/-- The meaning behind a next state. -/
theorem meaning_of_exec {i : Instr} {s t : State} (h : exec i s = .next t) : Meaning s i t := by
  obtain ⟨u, hu, hm⟩ := exec_meaning i s
  rw [hu] at h
  cases h
  exact hm

/-! ### The fetch, in the words of the claims (R111) -/

theorem fetches_iff {s : State} {w : Word} : Fetches s w ↔ s.status = .running ∧ fetch s = .ok w := by
  have hallowed : Allowed s.params .fetch s.pc 4 ↔ InSpace s.pc 4 ∧ ReadAllowed s.params s.pc 4 :=
    allowed_iff_of_ne_store (by decide) (by decide)
  have hvalue := toNat_readWide s.mem s.pc.toNat .word
  refine and_congr_right fun _ => ⟨fun ⟨hin, hread, hw⟩ => ?_, fun hf => ?_⟩
  · rw [fetch_of_allowed (hallowed.mpr ⟨hin, hread⟩), BitVec.eq_of_toNat_eq (hvalue.trans hw.symm)]
  · obtain ⟨ha, rfl⟩ := memRead_ok hf
    exact ⟨(hallowed.mp ha).1, (hallowed.mp ha).2, hvalue⟩

theorem step_of_fetches {s : State} {w : Word} {i : Instr} (hf : Fetches s w) (hd : decode w = .ok i) :
    step s = exec i s.advancePc := by
  obtain ⟨hrunning, hfetch⟩ := fetches_iff.mp hf
  exact step_of_decode hrunning hfetch hd

theorem step_of_fetches_illegal {s : State} {w : Word} {e : IllegalWord} (hf : Fetches s w)
    (hd : decode w = .error e) : step s = raise (illegalFault e) s.advancePc := by
  obtain ⟨hrunning, hfetch⟩ := fetches_iff.mp hf
  exact step_of_illegal hrunning hfetch hd

end Sys2Proof.Proofs.Meanings

/-! PROOFS. The statements about the step: the fetch, the decoder's refusals and where a step is defined (R110-R116). -/
namespace Sys2Proof.Proofs.Step
open Sys2Proof.Machine Sys2Proof.Claims Sys2Proof.Proofs.MemoryAccess Sys2Proof.Proofs.Codec
  Sys2Proof.Proofs.Meanings

/-- Settles O8: the fetched word is decoded and run on the advanced state. -/
theorem stepRunsDecodedInstruction : Obligations.StepRunsDecodedInstruction := by
  unfold Obligations.StepRunsDecodedInstruction
  exact fun _ _ _ hf hd => step_of_fetches hf hd

/-! ### Faults of the fetch and of the decoder -/

theorem step_of_fetch_fault {s : State} {f : CoreFault} (hr : s.status = .running)
    (hf : accessFault s.params .fetch s.pc 4 = some f) :
    ∃ t, step s = .next t ∧ OnlyStatus s t (.faulted f) :=
  ⟨_, step_of_fetch_error hr (memRead_of_fault hf), onlyStatus_setStatus s _⟩

/-- Settles O9: the bounds check fails, or it passes and the region check fails. -/
theorem fetchFaultLeavesPc : Obligations.FetchFaultLeavesPc := by
  unfold Obligations.FetchFaultLeavesPc
  refine fun s hr => ⟨fun hout => ?_, fun hin hrefused => ?_⟩
  · exact step_of_fetch_fault hr (accessFault_of_outside (Nat.lt_of_not_le hout))
  · have hallowed := allowed_iff_of_ne_store (p := s.params) (a := s.pc) (n := 4) (access := .fetch) (by decide)
      (by decide)
    exact step_of_fetch_fault hr (accessFault_of_region hin fun h => hrefused (hallowed.mp h).2)

theorem step_raises_of_fetches {s : State} {w : Word} {f : CoreFault} (hf : Fetches s w)
    (h : (∃ e, decode w = .error e ∧ illegalFault e = f) ∨
      ∃ i, decode w = .ok i ∧ ∀ u, exec i u = raise f u) :
    ∃ t, step s = .next t ∧ OnlyStatus { s with pc := s.pc + 4 } t (.faulted f) := by
  have hstep : step s = raise f s.advancePc := by
    rcases h with ⟨e, hd, rfl⟩ | ⟨i, hd, hexec⟩
    · exact step_of_fetches_illegal hf hd
    · rw [step_of_fetches hf hd, hexec]
  rw [hstep]
  exact onlyStatus_raise f s.advancePc

/-- Settles O10: funct 0x0C is the row that faults, every other one is rejected by the decoder. -/
theorem unknownFunctFaults : Obligations.UnknownFunctFaults := by
  unfold Obligations.UnknownFunctFaults
  intro s w hf ho h20 h22 h24 h25
  apply step_raises_of_fetches hf
  by_cases h0C : functOf w = 0x0C
  · exact .inr ⟨_, decode_of_verdict (.syscallRtype ho h0C), fun u => by rw [h0C]; rfl⟩
  · have hother : functOf w ∉ [0x20, 0x22, 0x24, 0x25, 0x0C] := by
      simp only [List.mem_cons, List.not_mem_nil, or_false, not_or]
      exact ⟨h20, h22, h24, h25, h0C⟩
    exact .inl ⟨_, decode_of_verdict (.unknownFunct ho hother), rfl⟩

/-- Settles O11: `addi` and `addiu` are the rows that fault, every other opcode is rejected by the decoder. -/
theorem unknownOpcodeFaults : Obligations.UnknownOpcodeFaults := by
  unfold Obligations.UnknownOpcodeFaults
  intro s w hf ho
  apply step_raises_of_fetches hf
  by_cases h08 : opcodeOf w = 0x08
  · exact .inr ⟨_, decode_of_verdict (.addi h08), fun u => by rw [h08]; rfl⟩
  by_cases h09 : opcodeOf w = 0x09
  · exact .inr ⟨_, decode_of_verdict (.addiu h09), fun u => by rw [h09]; rfl⟩
  exact .inl ⟨_, decode_of_verdict (.unknownOpcode (by simp_all)), rfl⟩

/-- Settles O12: each of the three rows is its fault. -/
theorem faultingRowsTakeTheirFault : Obligations.FaultingRowsTakeTheirFault := by
  unfold Obligations.FaultingRowsTakeTheirFault
  exact ⟨fun _ _ _ _ s => onlyStatus_raise (.unknownFunct 0x0C) s,
    fun _ _ _ s => onlyStatus_raise (.unknownOpcode 0x08) s,
    fun _ _ _ s => onlyStatus_raise (.unknownOpcode 0x09) s⟩

/-! ### Where a step is defined (R110) -/

theorem step_of_halted {s : State} {code : Word} (h : s.status = .halted code) :
    step s = .fault (.halted code) := by
  simp only [step, h]

theorem step_of_faulted {s : State} {f : CoreFault} (h : s.status = .faulted f) :
    step s = .fault (.faulted f) := by
  simp only [step, h]

/-- Settles O14: every instruction has a meaning. -/
theorem everyInstructionCompletes : Obligations.EveryInstructionCompletes := by
  unfold Obligations.EveryInstructionCompletes
  exact fun i s => (exec_meaning i s).imp fun _ h => h.1

theorem step_completes {s : State} (hr : s.status = .running) : ∃ t, step s = .next t := by
  cases hf : fetch s with
  | error f => exact ⟨_, step_of_fetch_error hr hf⟩
  | ok w =>
    cases hd : decode w with
    | error e => exact ⟨_, step_of_illegal hr hf hd⟩
    | ok i => exact (step_of_decode hr hf hd) ▸ (exec_meaning i s.advancePc).imp fun _ h => h.1

/-- Settles O13: a running state completes its step, and the two other statuses are stops. -/
theorem stepIsDefinedExactlyWhileRunning : Obligations.StepIsDefinedExactlyWhileRunning := by
  unfold Obligations.StepIsDefinedExactlyWhileRunning
  exact ⟨fun s => ⟨fun ⟨_, h⟩ => (step_cases h).1, step_completes⟩, fun _ _ => step_of_halted,
    fun _ _ => step_of_faulted⟩

end Sys2Proof.Proofs.Step

/-! PROOFS. The rules of the whole machine: what every step keeps, what a fault commits, and which instruction
changes what. -/
namespace Sys2Proof.Proofs.WholeMachine
open Sys2Proof.Machine Sys2Proof.Claims Sys2Proof.Proofs.Codec Sys2Proof.Proofs.RoundTrip Sys2Proof.Proofs.Meanings
  Sys2Proof.Proofs.Step

/-! ### The invariant (R21, R24, R40) -/

/-- Settles O15: memory is empty at reset and every register zero. -/
theorem resetMeetsInvariant : Obligations.ResetMeetsInvariant := by
  unfold Obligations.ResetMeetsInvariant
  exact ⟨rfl, rfl, rfl, rfl⟩

/-- What the invariant speaks of: a state that agrees on it keeps it. -/
theorem Inv.congr {s t : State} (hs : s.Inv) (hmem : t.mem = s.mem) (hzero : t.x[0] = s.x[0]) (hhi : t.hi = s.hi)
    (hlo : t.lo = s.lo) : t.Inv :=
  ⟨hmem ▸ hs.memWf, hzero ▸ hs.regZero, hhi ▸ hs.hiZero, hlo ▸ hs.loZero⟩

theorem inv_setReg {s : State} (hs : s.Inv) (d : RegIdx) (v : Word) : (s.setReg d v).Inv :=
  Inv.congr hs (s.setReg_mem d v) (s.setReg_x_zero d v) (s.setReg_hi d v) (s.setReg_lo d v)

theorem inv_setPc {s : State} (hs : s.Inv) (target : Word) : (s.setPc target).Inv := Inv.congr hs rfl rfl rfl rfl

theorem inv_setStatus {s : State} (hs : s.Inv) (st : RunStatus) : (s.setStatus st).Inv :=
  Inv.congr hs rfl rfl rfl rfl

theorem inv_takeDraw {s : State} (hs : s.Inv) : s.takeDraw.Inv :=
  Inv.congr hs s.takeDraw_mem (congrArg (·[0]) s.takeDraw_x) s.takeDraw_hi s.takeDraw_lo

theorem effect_keeps_inv {s t : State} (hs : s.Inv) (h : Effect s t) : t.Inv := by
  cases h with
  | register d v => exact inv_setReg hs d v
  | jump target => exact inv_setPc hs target
  | link target => exact inv_setPc (inv_setReg hs _ _) target
  | store hw => exact ⟨memWrite_wf hs.memWf hw, hs.regZero, hs.hiZero, hs.loZero⟩
  | output bytes => exact Inv.congr hs rfl rfl rfl rfl
  | nothing => exact hs
  | draw v => exact inv_setReg (inv_takeDraw hs) _ v
  | exit _ => exact inv_setStatus hs _
  | fault f _ => exact inv_setStatus hs _

/-- Settles O16: the invariant is kept by each effect of an instruction and by the two other faults of a step. -/
theorem stepKeepsInvariant : Obligations.StepKeepsInvariant := by
  unfold Obligations.StepKeepsInvariant
  intro s t hs hstep
  have hadvance : s.advancePc.Inv := inv_setPc hs _
  obtain ⟨-, ⟨f, -, rfl⟩ | ⟨w, e, -, -, rfl⟩ | ⟨w, i, -, -, hexec⟩⟩ := step_cases hstep
  · exact inv_setStatus hs _
  · exact inv_setStatus hadvance _
  · exact effect_keeps_inv hadvance (effect_of_exec hexec)

/-! ### Parameters and output -/

theorem effect_keeps_params {s t : State} (h : Effect s t) : t.params = s.params := by
  cases h with
  | draw v => exact (State.setReg_params _ _ v).trans s.takeDraw_params
  | register d v => exact s.setReg_params d v
  | link target => exact s.setReg_params linkReg s.pc
  | _ => rfl

/-- Settles O18: no effect and no fault touches the parameters. -/
theorem stepKeepsParameters : Obligations.StepKeepsParameters := by
  unfold Obligations.StepKeepsParameters
  intro s t hstep
  obtain ⟨-, ⟨f, -, rfl⟩ | ⟨w, e, -, -, rfl⟩ | ⟨w, i, -, -, hexec⟩⟩ := step_cases hstep
  · rfl
  · rfl
  · exact (effect_keeps_params (effect_of_exec hexec) :)

/-- From a running state, only the effect of a fault ends in one. -/
theorem effect_of_faulted {s t : State} {f : CoreFault} (h : Effect s t) (hr : s.status = .running)
    (ht : t.status = .faulted f) : f.ofFetch = false ∧ t = s.setStatus (.faulted f) := by
  cases h with
  | fault g hg => cases ht; exact ⟨hg, rfl⟩
  | _ => simp [hr] at ht

theorem effect_output {s t : State} (h : Effect s t) : ∃ bytes, t.out = s.out ++ bytes := by
  cases h with
  | output bytes => exact ⟨bytes, rfl⟩
  | _ => exact ⟨[], by simp⟩

/-- What a step that ends in a fault is: one of the fetch, or one on the advanced state. -/
theorem step_of_faulted_next {s t : State} {f : CoreFault} (hstep : step s = .next t)
    (ht : t.status = .faulted f) :
    (f.ofFetch = true ∧ t = s.setStatus (.faulted f)) ∨
      (f.ofFetch = false ∧ t = s.advancePc.setStatus (.faulted f)) := by
  obtain ⟨hr, ⟨g, hf, rfl⟩ | ⟨w, e, -, -, rfl⟩ | ⟨w, i, -, -, hexec⟩⟩ := step_cases hstep
  · cases ht
    exact .inl ⟨accessFault_ofFetch (memRead_error hf), rfl⟩
  · cases ht
    exact .inr ⟨by cases e <;> rfl, rfl⟩
  · exact .inr (effect_of_faulted (effect_of_exec hexec) hr ht)

theorem step_output {s t : State} (hstep : step s = .next t) : ∃ bytes, t.out = s.out ++ bytes := by
  obtain ⟨-, ⟨f, -, rfl⟩ | ⟨w, e, -, -, rfl⟩ | ⟨w, i, -, -, hexec⟩⟩ := step_cases hstep
  · exact ⟨[], (List.append_nil _).symm⟩
  · exact ⟨[], (List.append_nil _).symm⟩
  · exact (effect_output (effect_of_exec hexec) :)

/-- Settles O19: every step appends, and one that faults leaves the output as it is. -/
theorem outputOnlyGrows : Obligations.OutputOnlyGrows := by
  unfold Obligations.OutputOnlyGrows
  intro s t hstep
  obtain ⟨bytes, hout⟩ := step_output hstep
  refine ⟨bytes, hout, fun ⟨f, hf⟩ => ?_⟩
  have hsame : t.out = s.out := by
    rcases step_of_faulted_next hstep hf with ⟨-, rfl⟩ | ⟨-, rfl⟩ <;> rfl
  exact List.append_right_eq_self.mp (hout.symm.trans hsame)

theorem fetchFault_iff (f : CoreFault) : FetchFault f ↔ f.ofFetch = true := by
  unfold FetchFault
  cases f <;> simp [CoreFault.ofFetch]

/-- Settles O20: the two shapes of a faulting step, told apart by the fault's origin. -/
theorem faultCommitsOnlyPcAndStatus : Obligations.FaultCommitsOnlyPcAndStatus := by
  unfold Obligations.FaultCommitsOnlyPcAndStatus
  intro s t f hstep ht
  rw [fetchFault_iff]
  refine ⟨fun hfetch => ?_, fun hlater => ?_, step_of_faulted ht⟩
  · rcases step_of_faulted_next hstep ht with ⟨-, h⟩ | ⟨hno, -⟩
    · exact h
    · rw [hno] at hfetch; cases hfetch
  · rcases step_of_faulted_next hstep ht with ⟨hyes, -⟩ | ⟨-, h⟩
    · exact absurd hyes hlater
    · exact h

/-! ### Which instruction changes what -/

theorem memory_of_meaning {s t : State} {i : Instr} (h : Meaning s i t) (hi : opcodeOf (encode i) ≠ 0x2B) :
    t.mem = s.mem := by
  cases h with
  | store rt rs imm m => exact absurd (opcodeOf_packI _ _ _ _) hi
  | _ => simp

/-- Settles O21: only the meaning of `sw` sets memory, and its word has opcode 0x2B. -/
theorem onlyStoreChangesMemory : Obligations.OnlyStoreChangesMemory := by
  unfold Obligations.OnlyStoreChangesMemory
  intro s t hfetched hstep
  obtain ⟨hr, ⟨f, -, rfl⟩ | ⟨w, e, -, -, rfl⟩ | ⟨w, i, hf, hd, hexec⟩⟩ := step_cases hstep
  · rfl
  · rfl
  · have ho := hfetched w (fetches_iff.mpr ⟨hr, hf⟩)
    rw [← encode_of_decode hd] at ho
    exact (memory_of_meaning (meaning_of_exec hexec) ho :)

theorem reg_of_meaning {s t : State} {i : Instr} (h : Meaning s i t) {r : RegIdx}
    (hr : destination i s ≠ some r) : t.reg r = s.reg r := by
  cases h with
  | register v hd => rw [State.reg_setReg, if_neg fun ⟨e, _⟩ => hr (e ▸ hd)]
  | link field target =>
    rw [State.reg_setPc, State.reg_setReg, if_neg fun ⟨e, _⟩ => hr (congrArg some e.symm)]
  | draw rt rs imm v h5 =>
    rw [State.reg_setReg, if_neg fun ⟨e, _⟩ => hr (e ▸ if_pos h5), State.reg_takeDraw]
  | _ => rfl

/-- Settles O22: every register write of a meaning is to the destination. -/
theorem onlyDestinationRegisterChanges : Obligations.OnlyDestinationRegisterChanges := by
  unfold Obligations.OnlyDestinationRegisterChanges
  exact fun _ _ _ hexec _ hr => reg_of_meaning (meaning_of_exec hexec) hr

/-- From a running state, only `syscall` with service code 10 halts. -/
theorem meaning_of_halted {s t : State} {i : Instr} {code : Word} (h : Meaning s i t) (hr : s.status = .running)
    (ht : t.status = .halted code) : opcodeOf (encode i) = 0x0C ∧ s.reg 2 = 10 ∧ s.reg 4 = code := by
  cases h with
  | exit rt rs imm h10 => cases ht; exact ⟨opcodeOf_packI _ _ _ _, h10, rfl⟩
  | _ => simp [hr] at ht

/-- Settles O23: from the halted state back through the meaning that halts; and the exit service, run. -/
theorem onlyExitHalts : Obligations.OnlyExitHalts := by
  unfold Obligations.OnlyExitHalts
  intro s t w code hfetch hstep
  constructor
  · intro ht
    cases hd : decode w with
    | error e =>
      rw [step_of_fetches_illegal hfetch hd] at hstep
      cases hstep
      cases ht
    | ok i =>
      rw [step_of_fetches hfetch hd] at hstep
      rw [← encode_of_decode hd]
      exact (meaning_of_halted (meaning_of_exec hstep) hfetch.1 ht :)
  · rintro ⟨ho, h2, rfl⟩
    rw [step_of_fetches hfetch (decode_of_verdict (.syscall ho)), exec_syscall,
      execSyscall_exit (s := s.advancePc) h2] at hstep
    cases hstep
    rfl

/-! ### `hi` and `lo` (R24) -/

section
variable (h l : Word) (s : State)

theorem setReg_withHiLo (d : RegIdx) (v : Word) : (withHiLo h l s).setReg d v = withHiLo h l (s.setReg d v) := by
  unfold State.setReg
  split <;> rfl

theorem takeDraw_withHiLo : (withHiLo h l s).takeDraw = withHiLo h l s.takeDraw := by
  unfold State.takeDraw
  cases hd : s.draws <;> simp only [withHiLo, hd]

theorem next_setReg_withHiLo (d : RegIdx) (v : Word) :
    (.next ((withHiLo h l s).setReg d v) : Outcome) = mapNext (withHiLo h l) (.next (s.setReg d v)) :=
  congrArg _ (setReg_withHiLo h l s d v)

theorem branchIf_withHiLo (c : Bool) (imm : Imm16) :
    branchIf c imm (withHiLo h l s) = mapNext (withHiLo h l) (branchIf c imm s) := by
  cases c <;> rfl

theorem execLw_withHiLo (rt rs : RegIdx) (imm : Imm16) :
    execLw rt rs imm (withHiLo h l s) = mapNext (withHiLo h l) (execLw rt rs imm s) := by
  have hload : loadWord (withHiLo h l s) (loadAddress rs imm (withHiLo h l s)) =
    loadWord s (loadAddress rs imm s) := rfl
  rw [execLw, execLw, hload]
  cases loadWord s (loadAddress rs imm s) with
  | ok v => exact next_setReg_withHiLo h l s rt v
  | error f => rfl

theorem execSw_withHiLo (rt rs : RegIdx) (imm : Imm16) :
    execSw rt rs imm (withHiLo h l s) = mapNext (withHiLo h l) (execSw rt rs imm s) := by
  have hstore : storeWord (withHiLo h l s) (storeAddress rt (withHiLo h l s)) (storeValue rs imm (withHiLo h l s)) =
    (storeWord s (storeAddress rt s) (storeValue rs imm s)).map (withHiLo h l) := by
    unfold storeWord
    change (memWrite s.params s.mem (storeAddress rt s) .word (storeValue rs imm s)).map _ = _
    cases memWrite s.params s.mem (storeAddress rt s) .word (storeValue rs imm s) <;> rfl
  rw [execSw, execSw, hstore]
  cases storeWord s (storeAddress rt s) (storeValue rs imm s) <;> rfl

theorem servicePrintString_withHiLo :
    servicePrintString (withHiLo h l s) = mapNext (withHiLo h l) (servicePrintString s) := by
  have hread : memReadString (withHiLo h l s).params (withHiLo h l s).mem ((withHiLo h l s).reg argumentReg) =
    memReadString s.params s.mem (s.reg argumentReg) := rfl
  rw [servicePrintString, servicePrintString, hread]
  cases memReadString s.params s.mem (s.reg argumentReg) <;> rfl

theorem serviceReadInt_withHiLo :
    serviceReadInt (withHiLo h l s) = mapNext (withHiLo h l) (serviceReadInt s) := by
  rw [serviceReadInt, takeDraw_withHiLo]
  exact next_setReg_withHiLo h l s.takeDraw serviceReg s.nextDraw

theorem execSyscall_withHiLo :
    execSyscall (withHiLo h l s) = mapNext (withHiLo h l) (execSyscall s) := by
  have hcode : (withHiLo h l s).reg serviceReg = s.reg serviceReg := rfl
  rw [execSyscall, execSyscall, hcode, servicePrintString_withHiLo, serviceReadInt_withHiLo]
  split_ifs <;> rfl

theorem exec_withHiLo (i : Instr) : exec i (withHiLo h l s) = mapNext (withHiLo h l) (exec i s) := by
  cases i with
  | syscall => exact execSyscall_withHiLo h l s
  | lw rt rs imm => exact execLw_withHiLo h l s rt rs imm
  | sw rt rs imm => exact execSw_withHiLo h l s rt rs imm
  | beq rt rs imm | bne rt rs imm | bgtz rt rs imm => exact branchIf_withHiLo h l s _ imm
  | jal target =>
    exact congrArg (fun u : State => (.next (u.setPc (jumpTarget target)) : Outcome)) (setReg_withHiLo h l s _ _)
  | j | syscallRtype | addi | addiu => rfl
  | _ => exact next_setReg_withHiLo h l s _ _

end

/-- Settles O17: the fetch reads neither, and every instruction commutes with replacing them. -/
theorem hiLoAreNeitherReadNorWritten : Obligations.HiLoAreNeitherReadNorWritten := by
  unfold Obligations.HiLoAreNeitherReadNorWritten
  intro s h l
  have hstatus : (withHiLo h l s).status = s.status := rfl
  have hfetch : fetch (withHiLo h l s) = fetch s := rfl
  rw [step, step, hstatus, hfetch]
  cases s.status with
  | halted code => rfl
  | faulted f => rfl
  | running =>
    cases fetch s with
    | error f => rfl
    | ok w =>
      cases hd : decode w with
      | error e => simp only [hd]; rfl
      | ok i => simp only [hd]; exact exec_withHiLo h l s.advancePc i

/-! ### Registers (R21) -/

/-- Settles O24: the law of a read after a write, for the destination and for the others. -/
theorem registerFileLaw : Obligations.RegisterFileLaw := by
  unfold Obligations.RegisterFileLaw
  refine fun s d r v => ⟨s.reg_zero, s.setReg_zero v, fun hd => ?_, fun hr => ?_⟩
  · rw [State.reg_setReg, if_pos ⟨rfl, hd⟩]
  · rw [State.reg_setReg, if_neg fun h => hr h.1]

end Sys2Proof.Proofs.WholeMachine

/-! PROOFS. The statements about stores, strings and regions (R45-R48, R52, R53, R58), and about `lw` and `sw`
(R140, R141). -/
namespace Sys2Proof.Proofs.LoadStore
open Sys2Proof.Machine Sys2Proof.Claims Sys2Proof.Proofs.MemoryAccess Sys2Proof.Proofs.Codec
  Sys2Proof.Proofs.Frames Sys2Proof.Proofs.Meanings

/-! ### The checks of a store and of a string, in the words of the claims -/

/-- R53: a store touches text exactly when it starts below the end of text and ends above its start. -/
theorem touchesText_iff {a : Word} {n : Nat} (hn : 0 < n) :
    TouchesText a n ↔ a.toNat < dataOffset ∧ textOffset < a.toNat + n := by
  unfold TouchesText dataOffset textOffset
  constructor
  · rintro ⟨k, hk, hlow, hhigh⟩
    omega
  · rintro ⟨hstart, hend⟩
    by_cases h : a.toNat < 0x00400000
    · exact ⟨0x00400000 - a.toNat, by omega, by omega, by omega⟩
    · exact ⟨0, hn, by omega, by omega⟩

theorem allowed_store_iff {p : Params} {a : Word} {n : Nat} (hn : 0 < n) :
    Allowed p .store a n ↔ InSpace a n ∧ StoreAllowed p a n := by
  rw [StoreAllowed, readAllowed_iff hn, touchesText_iff hn, not_and, not_and_or, Nat.not_lt, Nat.not_lt]
  constructor
  · rintro ⟨hbounds, hreserved, htext⟩
    exact ⟨hbounds, hreserved, htext rfl⟩
  · rintro ⟨hbounds, hreserved, htext⟩
    exact ⟨hbounds, hreserved, fun _ => htext⟩

theorem accessFault_eq_memRegion_iff {p : Params} {access : Access} {a : Word} {n : Nat} (hin : InSpace a n) :
    accessFault p access a n = some (.memRegion a n access) ↔ ¬ Allowed p access a n :=
  ⟨fun h ha => (nomatch (accessFault_eq_none.mpr ha).symm.trans h), accessFault_of_region hin⟩

theorem touchesReserved_iff {p : Params} {a : Word} :
    touchesReserved p a = true ↔ p.reservedLowFaults = true ∧ a.toNat < 0x00400000 := by
  rw [touchesReserved, Bool.and_eq_true, decide_eq_true_eq, textOffset]

theorem touchesReserved_eq_false_iff {p : Params} {a : Word} :
    touchesReserved p a = false ↔ ReadAllowed p a 1 := by
  rw [readAllowed_iff Nat.one_pos, ← Bool.not_eq_true, touchesReserved_iff, not_and, Nat.not_lt, textOffset]

/-! ### The bytes of a store -/

/-- The big-endian number of a list of bytes. -/
def bytesValue (bytes : List Byte) : Nat := bytes.foldl (fun acc b => acc * 256 + b.toNat) 0

/-- The number at an address is that of the bytes that are there. -/
theorem bigEndian_of_reads {m : Memory} {a : Nat} {bytes : List Byte}
    (h : ∀ k (hk : k < bytes.length), m.read (a + k) = bytes[k]) :
    bigEndian m a bytes.length = bytesValue bytes := by
  induction bytes using List.reverseRecOn with
  | nil => rfl
  | append_singleton bytes b ih =>
    have hlast := h bytes.length (by simp)
    rw [List.getElem_concat_length rfl] at hlast
    have hrest : bigEndian m a bytes.length = bytesValue bytes :=
      ih fun k hk => (h k (by simp; omega)).trans (List.getElem_append_left hk)
    rw [List.length_append, List.length_singleton, bigEndian, hlast, hrest, bytesValue, bytesValue,
      List.foldl_append]
    rfl

theorem bytesValue_wordBytes (w : Word) : bytesValue (wordBytes w) = w.toNat := by
  simp only [bytesValue, wordBytes, List.foldl_cons, List.foldl_nil, toNat_extract]
  omega

theorem toNat_getElem_wordBytes (w : Word) {k : Nat} (hk : k < (wordBytes w).length) :
    (wordBytes w)[k].toNat = w.toNat / 2 ^ (8 * (3 - k)) % 2 ^ 8 :=
  match k, hk with
  | 0, _ => toNat_extract w 24
  | 1, _ => toNat_extract w 16
  | 2, _ => toNat_extract w 8
  | 3, _ => toNat_extract w 0

theorem bytesValue_bytesToStore (v : Word) (n : Width) :
    bytesValue (bytesToStore v n) = v.toNat % 256 ^ n.bytes := by
  cases n with
  | byte =>
    simp only [bytesValue, bytesToStore, List.foldl_cons, List.foldl_nil, toNat_extract, Width.bytes]
    omega
  | halfword =>
    simp only [bytesValue, bytesToStore, List.foldl_cons, List.foldl_nil, toNat_extract, Width.bytes]
    omega
  | word =>
    rw [bytesToStore, bytesValue_wordBytes]
    exact (Nat.mod_eq_of_lt v.isLt).symm

theorem read_writeBytes_inside {m : Memory} (hm : m.wf = true) {a : Nat} {bytes : List Byte}
    (hb : a + bytes.length ≤ maxMemory) {k : Nat} (hk : k < bytes.length) :
    (m.writeBytes a bytes).read (a + k) = bytes[k] := by
  rw [Memory.read_writeBytes hm a bytes hb, dif_pos ⟨by omega, by omega⟩]
  simp only [Nat.add_sub_cancel_left]

theorem bigEndian_writeBytes {m : Memory} (hm : m.wf = true) {a : Nat} {bytes : List Byte}
    (hb : a + bytes.length ≤ maxMemory) :
    bigEndian (m.writeBytes a bytes) a bytes.length = bytesValue bytes :=
  bigEndian_of_reads fun _ hk => read_writeBytes_inside hm hb hk

theorem bigEndian_store {p : Params} {m : Memory} {a v : Word} {n : Width} (hm : m.wf = true)
    (ha : Allowed p .store a n.bytes) :
    bigEndian (m.writeBytes a.toNat (bytesToStore v n)) a.toNat n.bytes = v.toNat % 256 ^ n.bytes := by
  have h := bigEndian_writeBytes hm (a := a.toNat) (bytes := bytesToStore v n)
    (by rw [length_bytesToStore]; exact ha.bounds)
  rwa [length_bytesToStore, bytesValue_bytesToStore] at h

/-- Settles O48: the stored bytes and the frame by the laws of consecutive writes, the faults by the checks. -/
theorem memWriteStoresLowBytes : Obligations.MemWriteStoresLowBytes := by
  unfold Obligations.MemWriteStoresLowBytes
  intro p m a v n hm
  have hallowed := allowed_store_iff (p := p) (a := a) (width_bytes_pos n)
  refine ⟨fun hin hstore => ?stored, fun hout => ?outside, fun hin hrefused => ?region⟩
  case stored =>
    have ha := hallowed.mpr ⟨hin, hstore⟩
    have hwrite := memWrite_of_allowed (m := m) (v := v) ha
    refine ⟨_, hwrite, bigEndian_store hm ha, fun b hb => ?_, memWrite_wf hm hwrite⟩
    exact Memory.read_writeBytes_outside m _ _ (by rwa [length_bytesToStore])
  case outside => exact memWrite_of_fault (accessFault_of_outside (Nat.lt_of_not_le hout))
  case region => exact memWrite_of_fault (accessFault_of_region hin fun h => hrefused (hallowed.mp h).2)

/-! ### Reading a stored word back (R46) -/

/-- What a store was allowed to touch may be read, and so may the bytes above it. -/
theorem allowed_load_of_store {p : Params} {a b : Word} {m n : Nat} (h : Allowed p .store a m)
    (hab : a.toNat ≤ b.toNat) (hb : b.toNat + n ≤ maxMemory) : Allowed p .load b n :=
  ⟨hb, fun hr => (h.aboveReserved hr).trans hab, fun hs => by cases hs⟩

theorem memRead_load_of_store {p : Params} {m : Memory} {a b : Word} {k : Nat} {n : Width}
    (h : Allowed p .store a k) (hab : a.toNat ≤ b.toNat) (hb : b.toNat + n.bytes ≤ maxMemory) :
    ∃ v, memRead p m .load b n = .ok v ∧ v.toNat = bigEndian m b.toNat n.bytes :=
  ⟨_, memRead_of_allowed (allowed_load_of_store h hab hb), toNat_readWide m b.toNat n⟩

theorem readByte_of_store {p : Params} {m : Memory} {a b : Word} {k : Nat} (h : Allowed p .store a k)
    (hab : a.toNat ≤ b.toNat) : ∃ v, readByte p m b = .ok v ∧ v.toNat = (m.read b.toNat).toNat := by
  have hb : b.toNat + Width.byte.bytes ≤ maxMemory := Nat.le_of_not_lt (byte_never_past_top b)
  refine ⟨_, by rw [readByte, memRead_of_allowed (allowed_load_of_store h hab hb)]; rfl, ?_⟩
  simp [Memory.readWide]

theorem toNat_add_of_le {a c : Word} (h : a.toNat + c.toNat < 2 ^ 32) : (a + c).toNat = a.toNat + c.toNat := by
  rw [BitVec.toNat_add, Nat.mod_eq_of_lt h]

/-- The low three bytes of a number. -/
theorem mod_two_pow_24 (n : Nat) :
    n % 2 ^ 24 = n / 2 ^ 16 % 2 ^ 8 * 2 ^ 16 + n / 2 ^ 8 % 2 ^ 8 * 2 ^ 8 + n % 2 ^ 8 := by
  omega

/-- Settles O49: each read sees the bytes of the word at their places, and the byte after them as it was. -/
theorem wordWriteIsReadBack : Obligations.WordWriteIsReadBack := by
  unfold Obligations.WordWriteIsReadBack
  intro p m m' a w hm hwrite
  obtain ⟨ha, rfl⟩ := memWrite_ok hwrite
  have hbounds : a.toNat + 4 ≤ 2 ^ 32 := ha.bounds
  have hbyte : ∀ k, k < 4 → ((m.writeBytes a.toNat (wordBytes w)).read (a.toNat + k)).toNat =
      w.toNat / 2 ^ (8 * (3 - k)) % 2 ^ 8 := fun k hk =>
    (congrArg BitVec.toNat (read_writeBytes_inside hm ha.bounds hk)).trans (toNat_getElem_wordBytes w hk)
  have hbeyond : (m.writeBytes a.toNat (wordBytes w)).read (a.toNat + 4) = m.read (a.toNat + 4) :=
    Memory.read_writeBytes_outside m _ _ (.inr (Nat.le_refl _))
  refine ⟨?word, ?top, ?low, fun hfits => ?overlap⟩
  case word =>
    obtain ⟨v, hv, hvalue⟩ := memRead_load_of_store (m := m.writeBytes a.toNat (wordBytes w)) (n := .word)
      ha (Nat.le_refl _) ha.bounds
    have hword := hvalue.trans (bigEndian_store (n := .word) hm ha)
    exact hv.trans (congrArg Except.ok (BitVec.eq_of_toNat_eq (hword.trans (Nat.mod_eq_of_lt w.isLt))))
  case top =>
    obtain ⟨b, hb, hvalue⟩ := readByte_of_store (m := m.writeBytes a.toNat (wordBytes w)) ha (Nat.le_refl _)
    have h0 := hbyte 0 (by decide)
    rw [Nat.add_zero] at h0
    exact ⟨b, hb, by omega⟩
  case low =>
    have h3 : (a + 3).toNat = a.toNat + 3 := toNat_add_of_le (by simp; omega)
    obtain ⟨b, hb, hvalue⟩ := readByte_of_store (m := m.writeBytes a.toNat (wordBytes w)) (b := a + 3) ha (by omega)
    rw [h3, hbyte 3 (by decide)] at hvalue
    exact ⟨b, hb, by omega⟩
  case overlap =>
    have h1 : (a + 1).toNat = a.toNat + 1 := toNat_add_of_le (by simp; omega)
    obtain ⟨v, hv, hvalue⟩ := memRead_load_of_store (m := m.writeBytes a.toNat (wordBytes w)) (b := a + 1)
      (n := .word) ha (by omega) (by simp only [h1, Width.bytes, maxMemory]; omega)
    simp only [h1, Width.bytes, bigEndian, Nat.add_assoc, hbyte 1 (by decide), hbyte 2 (by decide),
      hbyte 3 (by decide), hbeyond, Nat.reduceAdd, Nat.reduceSub, Nat.reduceMul, Nat.pow_zero, Nat.div_one] at hvalue
    refine ⟨v, hv, ?_⟩
    rw [hvalue, mod_two_pow_24]
    ring

/-! ### Strings (R48) -/

theorem memReadString_of_found {p : Params} {m : Memory} {a : Word} {bytes : List Byte} (h : ReadAllowed p a 1)
    (hfound : m.stringFrom (maxMemory - a.toNat) a.toNat = some bytes) : memReadString p m a = .ok bytes := by
  rw [memReadString, touchesReserved_eq_false_iff.mpr h, hfound]
  rfl

theorem memReadString_of_noEnd {p : Params} {m : Memory} {a : Word} (h : ReadAllowed p a 1)
    (hnone : m.stringFrom (maxMemory - a.toNat) a.toNat = none) :
    memReadString p m a = .error (.memBounds a (maxMemory - a.toNat) .stringRead) := by
  rw [memReadString, touchesReserved_eq_false_iff.mpr h, hnone]
  rfl

theorem memReadString_of_refused {p : Params} {m : Memory} {a : Word} (h : ¬ ReadAllowed p a 1) :
    memReadString p m a = .error (.memRegion a (maxMemory - a.toNat) .stringRead) := by
  rw [← touchesReserved_eq_false_iff, Bool.not_eq_false] at h
  rw [memReadString, h]
  rfl

theorem memReadString_eq_ok_iff {p : Params} {m : Memory} {a : Word} (h : ReadAllowed p a 1) {bytes : List Byte} :
    memReadString p m a = .ok bytes ↔ StringAt m a.toNat bytes := by
  have hfound := m.stringFrom_eq_some (maxMemory - a.toNat) a.toNat bytes
  have hroom : bytes.length < maxMemory - a.toNat ↔ a.toNat + bytes.length < 2 ^ 32 := by
    unfold maxMemory; omega
  rw [StringAt, ← hroom, ← hfound]
  cases hs : m.stringFrom (maxMemory - a.toNat) a.toNat with
  | none => simp [memReadString_of_noEnd h hs]
  | some found => simp [memReadString_of_found h hs]

theorem stringFrom_eq_none_iff {m : Memory} {a : Word} :
    m.stringFrom (maxMemory - a.toNat) a.toNat = none ↔ NoZeroFrom m a.toNat := by
  rw [Memory.stringFrom_eq_none, NoZeroFrom, maxMemory]
  constructor
  · intro h k hlow hhigh
    have hk := h (k - a.toNat) (by omega)
    rwa [Nat.add_sub_cancel' hlow] at hk
  · exact fun h k hk => h _ (by omega) (by omega)

theorem memReadString_eq_memBounds_iff {p : Params} {m : Memory} {a : Word} (h : ReadAllowed p a 1) :
    memReadString p m a = .error (.memBounds a (2 ^ 32 - a.toNat) .stringRead) ↔ NoZeroFrom m a.toNat := by
  rw [← stringFrom_eq_none_iff]
  cases hs : m.stringFrom (maxMemory - a.toNat) a.toNat with
  | none => simp [memReadString_of_noEnd h hs, maxMemory]
  | some found => simp [memReadString_of_found h hs]

/-- Settles O50: the loop's two results, each with the condition it stands for. -/
theorem stringReadStopsAtFirstZero : Obligations.StringReadStopsAtFirstZero := by
  unfold Obligations.StringReadStopsAtFirstZero
  exact fun p m a h => ⟨fun bytes => memReadString_eq_ok_iff h, memReadString_eq_memBounds_iff h⟩

/-! ### Regions (R52, R53) -/

theorem memReadString_eq_memRegion_iff {p : Params} {m : Memory} {a : Word} :
    (∃ n, memReadString p m a = .error (.memRegion a n .stringRead)) ↔ ¬ ReadAllowed p a 1 := by
  constructor
  · rintro ⟨n, h⟩ hread
    cases hs : m.stringFrom (maxMemory - a.toNat) a.toNat with
    | none => cases (memReadString_of_noEnd hread hs).symm.trans h
    | some found => cases (memReadString_of_found hread hs).symm.trans h
  · exact fun h => ⟨_, memReadString_of_refused h⟩

/-- Settles O51: a region fault is a check that fails in bounds, and the check is the claim's. -/
theorem regionChecksRefuseExactlyTheirAccesses : Obligations.RegionChecksRefuseExactlyTheirAccesses := by
  unfold Obligations.RegionChecksRefuseExactlyTheirAccesses
  refine fun p m access a v hin => ⟨fun haccess => ?read, ?store, ?string⟩
  case read =>
    have hs : access ≠ .store := by rcases haccess with rfl | rfl <;> decide
    refine memRead_eq_error_iff.trans ((accessFault_eq_memRegion_iff hin).trans ?_)
    rw [allowed_iff_of_ne_store hs (by decide), ReadAllowed]
    exact ⟨fun h => by_contra fun hno => h ⟨hin, hno⟩, fun h hallowed => hallowed.2 h⟩
  case store =>
    refine memWrite_eq_error_iff.trans ((accessFault_eq_memRegion_iff hin).trans ?_)
    rw [allowed_store_iff (by decide), StoreAllowed, ReadAllowed]
    tauto
  case string =>
    rw [memReadString_eq_memRegion_iff, ← touchesReserved_eq_false_iff, Bool.not_eq_false, touchesReserved_iff]

/-! ### `lw` (R140) -/

theorem loadAddress_eq (rs : RegIdx) (imm : Imm16) (s : State) :
    loadAddress rs imm s = s.reg rs + BitVec.ofInt 32 imm.toInt := by
  rw [loadAddress, sext16_eq_ofInt]

theorem execLw_of_loaded {s : State} {rs : RegIdx} {imm : Imm16} {v : Word}
    (h : loadWord s (loadAddress rs imm s) = .ok v) (rt : RegIdx) : execLw rt rs imm s = .next (s.setReg rt v) := by
  rw [execLw, h]

theorem execLw_of_fault {s : State} {rs : RegIdx} {imm : Imm16} {f : CoreFault}
    (h : loadWord s (loadAddress rs imm s) = .error f) (rt : RegIdx) : execLw rt rs imm s = raise f s := by
  rw [execLw, h]

/-- Settles O31: the load's check decides between the register write and its fault. -/
theorem lwLoadsOrFaults : Obligations.LwLoadsOrFaults := by
  unfold Obligations.LwLoadsOrFaults
  refine ⟨fun w ho => decode_of_verdict (.lw ho), fun rt rs imm s ea hea => ?_⟩
  rw [← loadAddress_eq] at hea
  subst hea
  have hallowed := allowed_iff_of_ne_store (p := s.params) (a := loadAddress rs imm s) (n := 4) (access := .load)
    (by decide) (by decide)
  rw [exec_lw]
  refine ⟨fun hin hread => ?value, fun hout => ?outside, fun hin hrefused => ?region⟩
  case value =>
    have hload := memRead_of_allowed (m := s.mem) (n := .word) (hallowed.mpr ⟨hin, hread⟩)
    exact ⟨_, _, execLw_of_loaded hload rt, toNat_readWide s.mem _ .word, onlyRegister_setReg s rt _⟩
  case outside =>
    rw [execLw_of_fault (memRead_of_fault (accessFault_of_outside (Nat.lt_of_not_le hout)))]
    exact onlyStatus_raise _ s
  case region =>
    rw [execLw_of_fault (memRead_of_fault (accessFault_of_region hin fun h => hrefused (hallowed.mp h).2))]
    exact onlyStatus_raise _ s

/-! ### `sw` (R141) -/

theorem storeValue_eq (rs : RegIdx) (imm : Imm16) (s : State) :
    storeValue rs imm s = s.reg rs + BitVec.ofInt 32 imm.toInt := by
  rw [storeValue, sext16_eq_ofInt]

theorem execSw_of_stored {s : State} {rt rs : RegIdx} {imm : Imm16} {m : Memory}
    (h : memWrite s.params s.mem (s.reg rt) .word (storeValue rs imm s) = .ok m) :
    execSw rt rs imm s = .next (s.setMem m) := by
  rw [execSw, storeWord, storeAddress, h]
  rfl

theorem execSw_of_fault {s : State} {rt rs : RegIdx} {imm : Imm16} {f : CoreFault}
    (h : memWrite s.params s.mem (s.reg rt) .word (storeValue rs imm s) = .error f) :
    execSw rt rs imm s = raise f s := by
  rw [execSw, storeWord, storeAddress, h]
  rfl

/-- Settles O32: an allowed `sw` is one memory write, whose bytes and frame are those of MemWrite. -/
theorem swStoresWord : Obligations.SwStoresWord := by
  unfold Obligations.SwStoresWord
  refine ⟨fun w ho => decode_of_verdict (.sw ho), fun rt rs imm s hm hin hstore => ?_⟩
  have ha := (allowed_store_iff (by decide)).mpr ⟨hin, hstore⟩
  refine ⟨_, execSw_of_stored (memWrite_of_allowed (n := .word) ha), ?_, fun a hout => ?_, rfl, rfl, fun _ => rfl,
    ⟨rfl, rfl, rfl⟩, rfl, rfl, rfl⟩
  · rw [← storeValue_eq]
    exact (bigEndian_store (n := .word) hm ha).trans (Nat.mod_eq_of_lt (BitVec.isLt _))
  · exact Memory.read_writeBytes_outside s.mem _ _ hout

/-- Settles O33: the store's check fails, and `sw` raises its fault. -/
theorem swFaultsWriteNothing : Obligations.SwFaultsWriteNothing := by
  unfold Obligations.SwFaultsWriteNothing
  refine fun rt rs imm s => ⟨fun hout => ?_, fun hin hrefused => ?_⟩
  · rw [exec_sw, execSw_of_fault (memWrite_of_fault (accessFault_of_outside (Nat.lt_of_not_le hout)))]
    exact onlyStatus_raise _ s
  · have hno : ¬ Allowed s.params .store (s.reg rt) 4 := fun h => hrefused ((allowed_store_iff (by decide)).mp h).2
    rw [exec_sw, execSw_of_fault (memWrite_of_fault (accessFault_of_region hin hno))]
    exact onlyStatus_raise _ s

/-- Settles O52: a store that leaves the machine running was allowed, so a fetch of its address is too. -/
theorem storeIsSeenByTheNextFetch : Obligations.StoreIsSeenByTheNextFetch := by
  unfold Obligations.StoreIsSeenByTheNextFetch
  intro rt rs imm s t hm hexec hrunning
  rw [exec_sw] at hexec
  cases hwrite : memWrite s.params s.mem (s.reg rt) .word (storeValue rs imm s) with
  | error f =>
    rw [execSw_of_fault hwrite] at hexec
    cases hexec
    cases hrunning
  | ok m =>
    rw [execSw_of_stored hwrite] at hexec
    cases hexec
    obtain ⟨ha, rfl⟩ := memWrite_ok hwrite
    obtain ⟨hin, hread, -⟩ := (allowed_store_iff (by decide)).mp ha
    rw [← storeValue_eq]
    refine ⟨hrunning, hin, hread, ?_⟩
    exact ((bigEndian_store (n := .word) hm ha).trans (Nat.mod_eq_of_lt (BitVec.isLt _))).symm

end Sys2Proof.Proofs.LoadStore

/-! PROOFS. The statements about the R-type instructions (R130-R133), `lui` (R150), the branches (R160-R163)
and `j` (R170). -/
namespace Sys2Proof.Proofs.AluAndBranch
open Sys2Proof.Machine Sys2Proof.Claims Sys2Proof.Proofs.Codec Sys2Proof.Proofs.Frames Sys2Proof.Proofs.Meanings

/-! ### R-type and `lui`: one register write each -/

theorem exec_add (rd rs rt : RegIdx) (shamt : Shamt) (s : State) :
    exec (.add rd rs rt shamt) s = .next (s.setReg rd (s.reg rs + s.reg rt)) := rfl

theorem exec_sub (rd rs rt : RegIdx) (shamt : Shamt) (s : State) :
    exec (.sub rd rs rt shamt) s = .next (s.setReg rd (s.reg rs - s.reg rt)) := rfl

theorem exec_and (rd rs rt : RegIdx) (shamt : Shamt) (s : State) :
    exec (.and rd rs rt shamt) s = .next (s.setReg rd (s.reg rs &&& s.reg rt)) := rfl

theorem exec_or (rd rs rt : RegIdx) (shamt : Shamt) (s : State) :
    exec (.or rd rs rt shamt) s = .next (s.setReg rd (s.reg rs ||| s.reg rt)) := rfl

theorem exec_lui (rt rs : RegIdx) (imm : Imm16) (s : State) :
    exec (.lui rt rs imm) s = .next (s.setReg rt (upperImm imm)) := rfl

/-- Settles O25: `add` is one register write, of the sum. -/
theorem addWritesSumModulo : Obligations.AddWritesSumModulo := by
  unfold Obligations.AddWritesSumModulo
  exact ⟨fun w ho hf => decode_of_verdict (.add ho hf), fun rd rs rt shamt s =>
    ⟨_, _, exec_add rd rs rt shamt s, BitVec.toNat_add _ _, onlyRegister_setReg s rd _⟩⟩

/-- The difference of words is that of their numbers, modulo 2^32. -/
theorem toNat_sub_eq_emod (a b : Word) : ((a - b).toNat : Int) = (a.toNat - b.toNat : Int) % 2 ^ 32 := by
  rw [BitVec.toNat_sub]
  omega

/-- Settles O26: `sub` is one register write, of the difference. -/
theorem subWritesDifferenceModulo : Obligations.SubWritesDifferenceModulo := by
  unfold Obligations.SubWritesDifferenceModulo
  exact ⟨fun w ho hf => decode_of_verdict (.sub ho hf), fun rd rs rt shamt s =>
    ⟨_, _, exec_sub rd rs rt shamt s, toNat_sub_eq_emod _ _, onlyRegister_setReg s rd _⟩⟩

/-- Settles O27: each of the two is one register write, of the bitwise operation. -/
theorem andOrWorkBitByBit : Obligations.AndOrWorkBitByBit := by
  unfold Obligations.AndOrWorkBitByBit
  refine ⟨fun w ho hf => decode_of_verdict (.and ho hf), fun w ho hf => decode_of_verdict (.or ho hf),
    fun rd rs rt shamt s => ?and, fun rd rs rt shamt s => ?or⟩
  case and =>
    exact ⟨_, _, exec_and rd rs rt shamt s, fun _ => BitVec.getLsbD_and, onlyRegister_setReg s rd _⟩
  case or =>
    exact ⟨_, _, exec_or rd rs rt shamt s, fun _ => BitVec.getLsbD_or, onlyRegister_setReg s rd _⟩

/-- Settles O28: `lui` is one register write, of the upper immediate. -/
theorem luiWritesUpperImmediate : Obligations.LuiWritesUpperImmediate := by
  unfold Obligations.LuiWritesUpperImmediate
  exact ⟨fun w ho => decode_of_verdict (.lui ho), fun rt rs imm s =>
    ⟨_, _, exec_lui rt rs imm s, upperImm_toNat imm, onlyRegister_setReg s rt _⟩⟩

/-! ### Branches -/

theorem exec_beq (rt rs : RegIdx) (imm : Imm16) (s : State) :
    exec (.beq rt rs imm) s = branchIf (decide (s.reg rs = s.reg rt)) imm s := rfl

theorem exec_bne (rt rs : RegIdx) (imm : Imm16) (s : State) :
    exec (.bne rt rs imm) s = branchIf (decide (¬ s.reg rs = s.reg rt)) imm s := rfl

theorem exec_bgtz (rt rs : RegIdx) (imm : Imm16) (s : State) :
    exec (.bgtz rt rs imm) s = branchIf (decide (0 < (s.reg rs).toInt)) imm s := rfl

theorem branchTarget_eq (imm : Imm16) (s : State) :
    branchTarget imm s = s.pc + BitVec.ofInt 32 (4 * imm.toInt) := by
  rw [branchTarget, sext16_shiftLeft_two]

/-- What the three branches share: only `pc` changes, by the condition. -/
theorem onlyPc_branchIf (c : Prop) [Decidable c] (imm : Imm16) (s : State) :
    ∃ t, branchIf (decide c) imm s = .next t ∧
      OnlyPc s t (if c then s.pc + BitVec.ofInt 32 (4 * imm.toInt) else s.pc) := by
  refine ⟨_, rfl, ?_⟩
  rw [← branchTarget_eq]
  by_cases hc : c
  · simp only [hc, decide_true, if_true]
    exact onlyPc_setPc s _
  · simp only [hc, decide_false, if_false]
    exact onlyPc_self s

/-- Settles O34: both are a conditional branch, `bne` on the negated comparison. -/
theorem beqBneBranch : Obligations.BeqBneBranch := by
  unfold Obligations.BeqBneBranch
  refine ⟨fun w ho => decode_of_verdict (.beq ho), fun w ho => decode_of_verdict (.bne ho),
    fun rt rs imm s => ⟨?beq, ?bne⟩⟩
  case beq =>
    rw [exec_beq]
    exact onlyPc_branchIf _ imm s
  case bne =>
    rw [exec_bne, ← ite_not]
    exact onlyPc_branchIf _ imm s

/-- Settles O35: `bgtz` is a conditional branch. -/
theorem bgtzBranches : Obligations.BgtzBranches := by
  unfold Obligations.BgtzBranches
  refine ⟨fun w ho => decode_of_verdict (.bgtz ho), fun rt rs imm s => ?_⟩
  rw [exec_bgtz]
  exact onlyPc_branchIf _ imm s

/-- The offset of a branch is a multiple of 4, and 2^32 is one. -/
theorem branchTarget_mod_four (imm : Imm16) (s : State) : (branchTarget imm s).toNat % 4 = s.pc.toNat % 4 := by
  rw [branchTarget, BitVec.toNat_add, BitVec.toNat_shiftLeft, Nat.shiftLeft_eq]
  omega

theorem branchIf_mod_four {c : Bool} {imm : Imm16} {s t : State} (h : branchIf c imm s = .next t) :
    t.pc.toNat % 4 = s.pc.toNat % 4 := by
  cases c with
  | false => cases h; rfl
  | true => cases h; exact branchTarget_mod_four imm s

/-- Settles O36: each of the three is a conditional branch. -/
theorem branchesKeepAlignment : Obligations.BranchesKeepAlignment := by
  unfold Obligations.BranchesKeepAlignment
  rintro rt rs imm s t (h | h | h)
  · exact branchIf_mod_four (exec_beq rt rs imm s ▸ h)
  · exact branchIf_mod_four (exec_bne rt rs imm s ▸ h)
  · exact branchIf_mod_four (exec_bgtz rt rs imm s ▸ h)

/-! ### `j` -/

/-- Settles O37: `j` sets `pc` to the number of its field. -/
theorem jumpGoesToRawTarget : Obligations.JumpGoesToRawTarget := by
  unfold Obligations.JumpGoesToRawTarget
  exact ⟨fun w ho => decode_of_verdict (.j ho), fun target s =>
    ⟨_, _, rfl, jumpTarget_toNat target, onlyPc_setPc s _⟩⟩

end Sys2Proof.Proofs.AluAndBranch

/-! PROOFS. The statements about the services of `syscall` (R180-R189). -/
namespace Sys2Proof.Proofs.Services
open Sys2Proof.Machine Sys2Proof.Claims Sys2Proof.Proofs.Codec Sys2Proof.Proofs.Meanings
  Sys2Proof.Proofs.Step Sys2Proof.Proofs.LoadStore

/-! ### `print_int` (R181, R182) -/

/-- `digits` is the decimal numeral of `n`, most significant digit first, with no leading zero. -/
structure IsNumeral (n : Nat) (digits : List Nat) : Prop where
  small : ∀ d ∈ digits, d < 10
  nonempty : digits ≠ []
  noLeadingZero : digits.head? = some 0 → digits = [0]
  value : digits.foldl (fun acc d => 10 * acc + d) 0 = n

theorem isNumeral_digit {n : Nat} (hn : n < 10) : IsNumeral n [n] where
  small d hd := by rwa [List.mem_singleton.mp hd]
  nonempty := List.cons_ne_nil _ _
  noLeadingZero h := congrArg (fun d => [d]) (Option.some.inj h)
  value := by simp

/-- The numeral of `n / 10` is not zero's, so a digit after it makes no leading zero. -/
theorem isNumeral_snoc {n : Nat} {digits : List Nat} (hn : 10 ≤ n) (h : IsNumeral (n / 10) digits) :
    IsNumeral n (digits ++ [n % 10]) where
  small d hd := by
    rcases List.mem_append.mp hd with hd | hd
    · exact h.small d hd
    · rw [List.mem_singleton.mp hd]; omega
  nonempty := List.append_ne_nil_of_left_ne_nil h.nonempty _
  noLeadingZero hzero := by
    rw [List.head?_append_of_ne_nil _ h.nonempty] at hzero
    have hvalue := h.value
    rw [h.noLeadingZero hzero] at hvalue
    simp at hvalue
    omega
  value := by
    rw [List.foldl_append, h.value]
    simp only [List.foldl_cons, List.foldl_nil]
    omega

theorem decimalDigits_isNumeral (places : Nat) {n : Nat} (hn : n < 10 ^ (places + 1)) :
    ∃ digits, decimalDigits (places + 1) n = digits.map digitByte ∧ IsNumeral n digits := by
  induction places generalizing n with
  | zero => exact ⟨[n], if_pos hn, isNumeral_digit hn⟩
  | succ places ih =>
    rw [decimalDigits]
    by_cases hsmall : n < 10
    · rw [if_pos hsmall]
      exact ⟨[n], rfl, isNumeral_digit hsmall⟩
    · rw [if_neg hsmall]
      obtain ⟨digits, htext, hnumeral⟩ := ih (n := n / 10) (by rw [pow_succ] at hn; omega)
      exact ⟨digits ++ [n % 10], by rw [htext, List.map_append]; rfl, isNumeral_snoc (by omega) hnumeral⟩

/-- A 32-bit number has at most ten digits, read either way. -/
theorem printedInt_lt (p : Params) (v : Word) : (printedInt p v).natAbs < 10 ^ 10 := by
  have hnat := v.isLt
  have hlow := v.le_toInt
  have hhigh := v.toInt_lt
  unfold printedInt
  split <;> omega

theorem decimalText_isDecimal (p : Params) (v : Word) : IsDecimalText (printedInt p v) (decimalText p v) := by
  obtain ⟨digits, htext, hnumeral⟩ := decimalDigits_isNumeral 9 (printedInt_lt p v)
  exact ⟨digits, congrArg _ htext, hnumeral.small, hnumeral.nonempty, hnumeral.noLeadingZero, hnumeral.value⟩

/-- Settles O39: the service appends one text, which is the numeral of the printed number. -/
theorem printIntAppendsDecimal : Obligations.PrintIntAppendsDecimal := by
  unfold Obligations.PrintIntAppendsDecimal
  intro rt rs imm s h2
  rw [exec_syscall, execSyscall_printInt h2]
  exact ⟨_, _, rfl, decimalText_isDecimal s.params (s.reg 4), onlyOutput_hostWrite s _⟩

/-! ### `print_string` (R183) -/

theorem servicePrintString_of_read {s : State} {bytes : List Byte}
    (h : memReadString s.params s.mem (s.reg 4) = .ok bytes) :
    servicePrintString s = .next (hostWrite bytes s) := by
  rw [servicePrintString, argumentReg, h]

theorem servicePrintString_of_fault {s : State} {f : CoreFault}
    (h : memReadString s.params s.mem (s.reg 4) = .error f) : servicePrintString s = raise f s := by
  rw [servicePrintString, argumentReg, h]

/-- Settles O40: the three results of the string read, each carried to the service. -/
theorem printStringAppendsOrFaults : Obligations.PrintStringAppendsOrFaults := by
  unfold Obligations.PrintStringAppendsOrFaults
  intro rt rs imm s h2
  rw [exec_syscall, execSyscall_printString h2]
  refine ⟨fun bytes hread hstring => ?found, fun hread hnone => ?noEnd, fun hrefused => ?refused⟩
  case found =>
    rw [servicePrintString_of_read ((memReadString_eq_ok_iff hread).mpr hstring)]
    exact ⟨_, rfl, onlyOutput_hostWrite s bytes⟩
  case noEnd =>
    rw [servicePrintString_of_fault ((memReadString_eq_memBounds_iff hread).mpr hnone)]
    exact onlyStatus_raise _ s
  case refused =>
    rw [servicePrintString_of_fault (memReadString_of_refused hrefused)]
    exact ⟨_, _, rfl, onlyStatus_setStatus s _⟩

/-! ### `read_int` (R184) -/

theorem nextDraw_of_settled {s : State} {d : Word} {rest : List Word} (h : s.draws = d :: rest) :
    s.nextDraw = d ∧ s.takeDraw.draws = rest ∧ s.takeDraw.drawCount = s.drawCount := by
  simp only [State.nextDraw, State.takeDraw, h, and_self]

theorem nextDraw_of_free {s : State} (h : s.draws = []) :
    s.nextDraw = Config.hostDraw s.drawCount ∧ s.takeDraw.draws = [] ∧
      s.takeDraw.drawCount = s.drawCount + 1 := by
  simp only [State.nextDraw, State.takeDraw, h, and_self]

/-- Settles O41: the draw is one register write after the answer is taken. -/
theorem readIntWritesTheDraw : Obligations.ReadIntWritesTheDraw := by
  unfold Obligations.ReadIntWritesTheDraw
  intro rt rs imm s h2
  have hwritten : (s.takeDraw.setReg 2 s.nextDraw).reg 2 = s.nextDraw := by
    rw [State.reg_setReg, if_pos (by decide)]
  have hothers (r : RegIdx) (hr : r ≠ 2) : (s.takeDraw.setReg 2 s.nextDraw).reg r = s.reg r := by
    rw [State.reg_setReg, if_neg fun h => hr h.1, State.reg_takeDraw]
  rw [exec_syscall, execSyscall_readInt h2]
  refine ⟨s.takeDraw.setReg 2 s.nextDraw, rfl, fun d rest hd => ?settled, fun hd => ?free, hothers, by simp,
    by simp, by simp, fun a => by simp, by simp, by simp, by simp⟩
  case settled =>
    rw [hwritten, State.setReg_draws, State.setReg_drawCount]
    exact nextDraw_of_settled hd
  case free =>
    rw [hwritten, State.setReg_draws, State.setReg_drawCount]
    exact nextDraw_of_free hd

/-! ### The other services -/

/-- Settles O42: `exit` sets the status alone, and no step is defined from it. -/
theorem exitHaltsWithFullCode : Obligations.ExitHaltsWithFullCode := by
  unfold Obligations.ExitHaltsWithFullCode
  intro rt rs imm s h2
  rw [exec_syscall, execSyscall_exit h2]
  exact ⟨_, rfl, onlyStatus_setStatus s _, step_of_halted rfl⟩

/-- Settles O43: the byte written is the low slice of the register. -/
theorem printCharAppendsLowByte : Obligations.PrintCharAppendsLowByte := by
  unfold Obligations.PrintCharAppendsLowByte
  intro rt rs imm s h2
  rw [exec_syscall, execSyscall_printChar h2]
  refine ⟨_, _, rfl, ?_, onlyOutput_hostWrite s _⟩
  rw [toNat_extract, argumentReg, Nat.pow_zero, Nat.div_one]
  rfl

/-- Settles O44: each of the three codes names the service without effect. -/
theorem noEffectServicesChangeNothing : Obligations.NoEffectServicesChangeNothing := by
  unfold Obligations.NoEffectServicesChangeNothing
  intro rt rs imm s h2
  rw [exec_syscall, execSyscall_noEffect h2]

/-- Settles O45: a code that names no service raises its fault. -/
theorem unknownServiceFaults : Obligations.UnknownServiceFaults := by
  unfold Obligations.UnknownServiceFaults
  refine ⟨fun w ho => decode_of_verdict (.syscall ho), fun rt rs imm s h2 => ?_⟩
  have hcode : s.reg 2 ∉ ([1, 4, 5, 8, 9, 10, 11, 12] : List Word) := fun h => h2 (List.mem_map_of_mem h)
  rw [exec_syscall, execSyscall_unknown hcode]
  exact onlyStatus_raise _ s

end Sys2Proof.Proofs.Services

/-! PROOFS. The statements about reset, the launch and the object file (R230-R235). -/
namespace Sys2Proof.Proofs.Launch
open Sys2Proof.Machine Sys2Proof.Claims Sys2Proof.Proofs.MemoryAccess Sys2Proof.Proofs.LoadStore

/-- Settles O53: the fields a CPU reset sets, and the memory it leaves. -/
theorem resetValues : Obligations.ResetValues := by
  unfold Obligations.ResetValues
  exact ⟨fun s => ⟨s.reg_cpuReset, rfl, rfl, rfl, rfl, rfl, rfl⟩, rfl, Memory.read_nil⟩

/-! ### The image in memory (R232) -/

/-- One block in memory, in the words of `imageByte`. -/
theorem read_writeBytes_eq_getD {m : Memory} (hm : m.wf = true) {a : Nat} {bytes : List Byte}
    (hb : a + bytes.length ≤ maxMemory) (c : Nat) :
    (m.writeBytes a bytes).read c =
      if a ≤ c ∧ c < a + bytes.length then bytes.getD (c - a) 0 else m.read c := by
  rw [Memory.read_writeBytes hm a bytes hb]
  by_cases hc : a ≤ c ∧ c < a + bytes.length
  · rw [dif_pos hc, if_pos hc, List.getD_eq_getElem _ _ (by omega)]
  · rw [dif_neg hc, if_neg hc]

/-- Each block covers what the blocks before it have left, from any memory on. -/
theorem read_foldl_writeBytes {image : LaunchImage} (himage : image.wf = true) {m : Memory} (hm : m.wf = true)
    (a : Nat) :
    (image.foldl (fun m block => m.writeBytes block.1 block.2) m).read a =
      image.foldl (fun b block =>
        if block.1 ≤ a ∧ a < block.1 + block.2.length then block.2.getD (a - block.1) 0 else b) (m.read a) := by
  induction image generalizing m with
  | nil => rfl
  | cons block rest ih =>
    simp only [LaunchImage.wf, List.all_cons, Bool.and_eq_true, decide_eq_true_eq] at himage
    obtain ⟨hblock, hrest⟩ := himage
    rw [List.foldl_cons, List.foldl_cons, ih hrest (Memory.wf_writeBytes hm _ _ hblock),
      read_writeBytes_eq_getD hm hblock]

theorem read_imageMemory {image : LaunchImage} (h : image.wf = true) (a : Nat) :
    (imageMemory image).read a = imageByte image a := read_foldl_writeBytes h rfl a

theorem launch_reg (p : Params) (image : LaunchImage) (r : RegIdx) : (launch p image).reg r = 0 :=
  State.reg_cpuReset (State.setMem { State.reset with params := p } (imageMemory image)) r

/-- Settles O54: the reset's values, and the image's bytes block by block. -/
theorem launchPlacesTheImage : Obligations.LaunchPlacesTheImage := by
  unfold Obligations.LaunchPlacesTheImage
  intro p image himage
  exact ⟨launch_reg p image, rfl, rfl, rfl, rfl, rfl, rfl, read_imageMemory himage,
    ⟨wf_imageMemory himage, rfl, rfl, rfl⟩⟩

/-! ### A file of one section (R233) -/

theorem headerWord_toNat (littleEndian : Bool) (b0 b1 b2 b3 : Byte) :
    (headerWord littleEndian b0 b1 b2 b3).toNat = headerValue littleEndian b0 b1 b2 b3 := by
  cases littleEndian
  · simp only [headerWord, headerValue, Bool.false_eq_true, if_false, wordOfBytes_toNat]
    omega
  · simp only [headerWord, headerValue, if_true, wordOfBytes_toNat]
    omega

theorem readObject_oneSection {littleEndian : Bool} {endianness pad segment q1 q2 q3 o0 o1 o2 o3 z0 z1 z2 z3 : Byte}
    {payload : List Byte} {base : Word} (hbase : segmentBase segment = some base)
    (hsize : headerValue littleEndian z0 z1 z2 z3 = payload.length)
    (hfits : sectionStart base (headerWord littleEndian o0 o1 o2 o3) + payload.length ≤ maxMemory) :
    readObject littleEndian ([0x4D, 0x49, 0x50, 0x53, endianness, 1, 1, pad, segment, q1, q2, q3, o0, o1, o2, o3,
        z0, z1, z2, z3] ++ payload) =
      .ok [(sectionStart base (headerWord littleEndian o0 o1 o2 o3), payload)] := by
  have hplace : placeSections [⟨segment, headerWord littleEndian o0 o1 o2 o3, headerWord littleEndian z0 z1 z2 z3⟩]
      payload = .ok [(sectionStart base (headerWord littleEndian o0 o1 o2 o3), payload)] := by
    simp only [placeSections, hbase, headerWord_toNat, hsize]
    rw [if_neg (Nat.lt_irrefl _), if_neg (Nat.not_lt.mpr hfits), List.take_length]
    rfl
  exact hplace

theorem launchObject_oneSection {p : Params} {endianness pad segment q1 q2 q3 o0 o1 o2 o3 z0 z1 z2 z3 : Byte}
    {payload : List Byte} {base : Word} (hbase : segmentBase segment = some base)
    (hsize : headerValue p.headerLittleEndian z0 z1 z2 z3 = payload.length)
    (hfits : sectionStart base (headerWord p.headerLittleEndian o0 o1 o2 o3) + payload.length ≤ maxMemory) :
    launchObject p ([0x4D, 0x49, 0x50, 0x53, endianness, 1, 1, pad, segment, q1, q2, q3, o0, o1, o2, o3,
        z0, z1, z2, z3] ++ payload) =
      .ok (launch p [(sectionStart base (headerWord p.headerLittleEndian o0 o1 o2 o3), payload)]) := by
  rw [launchObject, readObject_oneSection hbase hsize hfits]
  rfl

/-- The memory of a launch with one block. -/
theorem launch_oneBlock_mem (p : Params) (start : Nat) (payload : List Byte) :
    (launch p [(start, payload)]).mem = Memory.writeBytes [] start payload := rfl

/-- Settles O60: the image is one block at the section's start, over empty memory. -/
theorem sectionLoadsAtBasePlusOffset : Obligations.SectionLoadsAtBasePlusOffset := by
  unfold Obligations.SectionLoadsAtBasePlusOffset
  intro p endianness pad segment q1 q2 q3 o0 o1 o2 o3 z0 z1 z2 z3 payload base start hsegment hstart hsize hfits
  obtain ⟨b, hb, hbase⟩ : ∃ b : Word, segmentBase segment = some b ∧ b.toNat = base := by
    rcases hsegment with ⟨rfl, rfl⟩ | ⟨rfl, rfl⟩
    · exact ⟨_, rfl, rfl⟩
    · exact ⟨_, rfl, rfl⟩
  have hat : sectionStart b (headerWord p.headerLittleEndian o0 o1 o2 o3) = start := by
    rw [sectionStart_eq, hbase, headerWord_toNat, hstart]
  refine ⟨_, launchObject_oneSection hb hsize (by rw [hat]; exact hfits), fun k hk => ?_, fun a ha => ?_⟩
  · rw [launch_oneBlock_mem, hat]
    exact read_writeBytes_inside rfl hfits hk
  · rw [launch_oneBlock_mem, hat]
    exact Memory.read_writeBytes_outside [] _ _ ha

/-! ### Load errors (R233) -/

theorem map_ne_error {ε α β : Type} {x : Except ε α} {e : ε} (h : x ≠ .error e) (f : α → β) :
    x.map f ≠ .error e := by
  cases x with
  | ok v => exact nofun
  | error e' => exact fun he => h (congrArg Except.error (Except.error.inj he))

theorem readSectionHeaders_ne_format (littleEndian : Bool) (count : Nat) (bytes : List Byte) :
    readSectionHeaders littleEndian count bytes ≠ .error .format := by
  fun_induction readSectionHeaders littleEndian count bytes with
  | case1 => exact nofun
  | case2 _ _ _ _ _ _ _ _ _ _ _ _ _ _ ih => exact map_ne_error ih _
  | case3 => exact nofun

theorem placeSections_ne_format (headers : List SectionHeader) (bytes : List Byte) :
    placeSections headers bytes ≠ .error .format := by
  fun_induction placeSections headers bytes with
  | case1 => exact nofun
  | case2 => exact nofun
  | case3 => exact nofun
  | case4 => exact nofun
  | case5 _ _ _ _ _ _ _ ih => exact map_ne_error ih _

/-- After a good header, no later part of the file is a format error. -/
theorem readObject_ne_format {littleEndian : Bool} {file : List Byte} {r : Nat × List Byte}
    (h : readHeader file = .ok r) : readObject littleEndian file ≠ .error .format := by
  rw [readObject, h]
  cases hs : readSectionHeaders littleEndian r.1 r.2 with
  | error e => simpa [hs] using readSectionHeaders_ne_format littleEndian r.1 r.2
  | ok hp => simpa [hs] using placeSections_ne_format hp.1 hp.2

/-- Settles O56: the header alone decides a format error, and it reads neither ignored byte. -/
theorem badHeaderIsAFormatError : Obligations.BadHeaderIsAFormatError := by
  unfold Obligations.BadHeaderIsAFormatError
  intro p m0 m1 m2 m3 endianness version count pad rest
  refine ⟨⟨fun h hgood => ?_, fun hbad => ?_⟩, fun _ _ => rfl⟩
  · have hheader : readHeader (m0 :: m1 :: m2 :: m3 :: endianness :: version :: count :: pad :: rest) =
        .ok (count.toNat, rest) := if_pos hgood
    exact map_ne_error (readObject_ne_format hheader) _ h
  · have hheader : readHeader (m0 :: m1 :: m2 :: m3 :: endianness :: version :: count :: pad :: rest) =
        .error .format := if_neg hbad
    rw [launchObject, readObject, hheader]
    rfl

/-! ### The object writer (R235) -/

theorem headerWordBytes_eq (littleEndian : Bool) (w : Word) : ∃ b0 b1 b2 b3,
    headerWordBytes littleEndian w = [b0, b1, b2, b3] ∧ headerWord littleEndian b0 b1 b2 b3 = w := by
  cases littleEndian
  · exact ⟨_, _, _, _, rfl, wordOfBytes_extract w⟩
  · exact ⟨_, _, _, _, rfl, wordOfBytes_extract w⟩

theorem length_saveObject (littleEndian : Bool) (binary : List Byte) :
    (saveObject littleEndian binary).length = 8 + 12 + binary.length := by
  cases littleEndian
  · simp [saveObject, headerWordBytes, magic]; omega
  · simp [saveObject, headerWordBytes, magic]; omega

/-- A saved binary loads as one block at TEXT_OFFSET. -/
theorem launchObject_saveObject (p : Params) {binary : List Byte} (hfits : textOffset + binary.length ≤ maxMemory) :
    launchObject p (saveObject p.headerLittleEndian binary) = .ok (launch p [(textOffset, binary)]) := by
  obtain ⟨o0, o1, o2, o3, hoffset, ho⟩ := headerWordBytes_eq p.headerLittleEndian 0
  obtain ⟨z0, z1, z2, z3, hsize, hz⟩ := headerWordBytes_eq p.headerLittleEndian (BitVec.ofNat 32 binary.length)
  have hstart : sectionStart (BitVec.ofNat 32 textOffset) (headerWord p.headerLittleEndian o0 o1 o2 o3) =
      textOffset := by rw [ho]; rfl
  have hlength : headerValue p.headerLittleEndian z0 z1 z2 z3 = binary.length := by
    rw [← headerWord_toNat, hz, BitVec.toNat_ofNat, Nat.mod_eq_of_lt]
    unfold textOffset maxMemory at hfits
    omega
  have hload := launchObject_oneSection (p := p) (endianness := 0) (pad := 0) (segment := 0) (q1 := 0) (q2 := 0)
    (q3 := 0) (base := BitVec.ofNat 32 textOffset) rfl hlength (by rwa [hstart])
  rw [hstart] at hload
  rw [← hload, saveObject, hoffset, hsize]
  rfl

theorem emittedBytes_cons (w : Word) (rest : List Word) :
    Assembler.emittedBytes (w :: rest) = wordBytes w ++ Assembler.emittedBytes rest := List.flatMap_cons

/-- Word `k` of a program is the bytes from `4k` of what the assembler emits. -/
theorem getElem?_emittedBytes {words : List Word} {k j : Nat} (hk : k < words.length) (hj : j < 4) :
    (Assembler.emittedBytes words)[4 * k + j]? = (wordBytes words[k])[j]? := by
  induction words generalizing k with
  | nil => cases hk
  | cons w rest ih =>
    rw [emittedBytes_cons]
    cases k with
    | zero =>
      rw [Nat.mul_zero, Nat.zero_add]
      exact List.getElem?_append_left hj
    | succ k =>
      have hindex : 4 * (k + 1) + j - (wordBytes w).length = 4 * k + j := by rw [length_wordBytes]; omega
      rw [List.getElem?_append_right (by rw [length_wordBytes]; omega), hindex]
      exact ih (Nat.lt_of_succ_lt_succ hk)

/-- In the launch memory of a program, the word at TEXT_OFFSET plus `4k` is word `k`. -/
theorem bigEndian_savedProgram (p : Params) {words : List Word}
    (hroom : textOffset + (Assembler.emittedBytes words).length ≤ maxMemory) {k : Nat} (hk : k < words.length) :
    bigEndian (launch p [(textOffset, Assembler.emittedBytes words)]).mem (textOffset + 4 * k) 4 =
      words[k].toNat := by
  rw [← bytesValue_wordBytes]
  refine bigEndian_of_reads (bytes := wordBytes words[k]) fun j hj => ?_
  rw [length_wordBytes] at hj
  have hin : 4 * k + j < (Assembler.emittedBytes words).length := by rw [length_emittedBytes]; omega
  rw [launch_oneBlock_mem, Nat.add_assoc]
  refine (read_writeBytes_inside rfl hroom hin).trans (Option.some.inj ?_)
  rw [← List.getElem?_eq_getElem, ← List.getElem?_eq_getElem, getElem?_emittedBytes hk hj]

/-- Settles O55: the saved binary is one block at TEXT_OFFSET, whose bytes from `4k` are those of word `k`. -/
theorem savedProgramLoadsAtTextOffset : Obligations.SavedProgramLoadsAtTextOffset := by
  unfold Obligations.SavedProgramLoadsAtTextOffset
  intro p words hfits
  have hlength := length_emittedBytes words
  have hroom : textOffset + (Assembler.emittedBytes words).length ≤ maxMemory := by rwa [hlength]
  refine ⟨by rw [length_saveObject, hlength], _, launchObject_saveObject p hroom, fun k hk => ?_⟩
  have hpc : (BitVec.ofNat 32 (0x00400000 + 4 * k)).toNat = 0x00400000 + 4 * k := by
    rw [BitVec.toNat_ofNat, Nat.mod_eq_of_lt (by omega)]
  refine ⟨rfl, ?_, ?_, ?_⟩
  · unfold InSpace
    simp only [hpc]
    omega
  · rw [readAllowed_iff (by decide)]
    intro _
    simp only [hpc, textOffset]
    omega
  · simp only [hpc]
    exact (bigEndian_savedProgram p hroom hk).symm

end Sys2Proof.Proofs.Launch

/-! PROOFS. The statements about the assembler: the packed words of R96, R97 and R98, and the mnemonics without core
semantics (R6, R94). -/
namespace Sys2Proof.Proofs.AssemblerWords
open Sys2Proof.Machine Sys2Proof.Machine.Assembler Sys2Proof.Claims Sys2Proof.Proofs.Step

/-! ### Statements by shape -/

theorem assembleStatement_r {t : Text} {funct : Code6} (h : shapeOf t = some (.r funct)) (args : List Text) :
    assembleStatement ⟨t, args⟩ = assembleR funct args := by
  rw [assembleStatement, h]

theorem assembleStatement_i {t : Text} {opcode : Code6} (h : shapeOf t = some (.i opcode)) (args : List Text) :
    assembleStatement ⟨t, args⟩ = assembleI opcode args := by
  rw [assembleStatement, h]

theorem assembleStatement_j {t : Text} {opcode : Code6} (h : shapeOf t = some (.j opcode)) (args : List Text) :
    assembleStatement ⟨t, args⟩ = assembleJ opcode args := by
  rw [assembleStatement, h]

theorem readRegister_regToken {d : Nat} (hd : d < 10) : readRegister (regToken d) = some d := by
  interval_cases d <;> rfl

/-! ### R-type statements (R96) -/

/-- The packer masks its numbers, so a funct given through its field is the number itself. -/
theorem assembleR_regTokens {d s t : Nat} (hd : d < 10) (hs : s < 10) (ht : t < 10) (funct : Nat) :
    assembleR (BitVec.ofNat 6 funct) [regToken d, regToken s, regToken t] =
      .ok (createR ⟨0, s, t, d, 0, funct⟩) := by
  simp only [assembleR, readRegister_regToken, hd, hs, ht, createR, BitVec.ofNat_toNat, BitVec.setWidth_eq]

theorem assembleR_of_length_ne {args : List Text} (h : args.length ≠ 3) (funct : Code6) :
    assembleR funct args = .error .wrongArgumentCount := by
  unfold assembleR
  split
  · exact absurd rfl h
  · rfl

theorem shapeOf_r : ∀ e ∈ [("add", 0x20), ("sub", 0x22), ("and", 0x24), ("or", 0x25), ("syscall", 0x0C)],
    shapeOf e.1.toList = some (.r (BitVec.ofNat 6 e.2)) := by
  decide

/-- Settles O57: the shape of each mnemonic is its funct's, and the rest is `assembleR`. -/
theorem assemblerPacksRTypeStatements : Obligations.AssemblerPacksRTypeStatements := by
  unfold Obligations.AssemblerPacksRTypeStatements
  refine fun e he => ⟨fun d s t hd hs ht => ?_, fun args hargs => ?_⟩
  · rw [assembleStatement_r (shapeOf_r e he)]
    exact assembleR_regTokens hd hs ht e.2
  · rw [assembleStatement_r (shapeOf_r e he)]
    exact assembleR_of_length_ne hargs _

/-! ### I-type and J-type statements (R97, R98) -/

theorem assembleI_regTokens {t s : Nat} {tok : Text} {v : Int} (ht : t < 10) (hs : s < 10)
    (hv : readImmediate tok = some v) (opcode : Nat) :
    assembleI (BitVec.ofNat 6 opcode) [regToken t, regToken s, tok] =
      if -32768 ≤ v ∧ v ≤ 32767 then .ok (createI ⟨opcode, s, t, (v % 65536).toNat⟩)
      else .error .immediateOutOfRange := by
  simp only [assembleI, readRegister_regToken, ht, hs, hv, createI, BitVec.ofNat_toNat, BitVec.setWidth_eq,
    BitVec.toNat_ofInt]
  rfl

theorem assembleJ_address {tok : Text} {a : Nat} (ha : readDecimal tok = some a) (opcode : Nat) :
    assembleJ (BitVec.ofNat 6 opcode) [tok] =
      if a < 2 ^ 26 then .ok (createJ ⟨opcode, a⟩) else .error .invalidAddress := by
  simp only [assembleJ, ha, createJ, BitVec.ofNat_toNat, BitVec.setWidth_eq]

theorem shapeOf_i : ∀ e ∈ [("addi", 0x08), ("addiu", 0x09), ("andi", 0x0C), ("beq", 0x04), ("bne", 0x05),
    ("bgtz", 0x07), ("lui", 0x0F), ("ori", 0x0D), ("nori", 0x0E), ("slti", 0x0A), ("lw", 0x23), ("sw", 0x2B)],
    shapeOf e.1.toList = some (.i (BitVec.ofNat 6 e.2)) := by
  decide

theorem shapeOf_j : ∀ e ∈ [("j", 0x02), ("jal", 0x03)], shapeOf e.1.toList = some (.j (BitVec.ofNat 6 e.2)) := by
  decide

/-- Settles O58: the shape of each mnemonic is its opcode's, and the rest is `assembleI` or `assembleJ`. -/
theorem assemblerPacksIAndJTypeStatements : Obligations.AssemblerPacksIAndJTypeStatements := by
  unfold Obligations.AssemblerPacksIAndJTypeStatements
  refine ⟨fun e he t s tok v ht hs hv => ?_, fun e he tok a ha => ?_⟩
  · rw [assembleStatement_i (shapeOf_i e he)]
    exact assembleI_regTokens ht hs hv e.2
  · rw [assembleStatement_j (shapeOf_j e he)]
    exact assembleJ_address ha e.2

/-! ### Mnemonics without core semantics (R6, R94) -/

/-- A shape whose words the core does not execute. -/
inductive Unexecuted : Shape → Prop where
  | r {funct : Code6} (h : funct ∉ [0x20, 0x22, 0x24, 0x25]) : Unexecuted (.r funct)
  | i {opcode : Code6}
    (h : opcode ∉ [0x00, 0x0C, 0x02, 0x03, 0x23, 0x2B, 0x0F, 0x0D, 0x0E, 0x0A, 0x04, 0x05, 0x07]) :
    Unexecuted (.i opcode)

theorem unexecutedFunct_not_mem : ∀ f : Code6, unexecutedFunct f ∉ [0x20, 0x22, 0x24, 0x25] := by decide

theorem unexecutedOpcode_not_mem : ∀ o : Code6, unexecutedOpcode o ∉
    [0x00, 0x0C, 0x02, 0x03, 0x23, 0x2B, 0x0F, 0x0D, 0x0E, 0x0A, 0x04, 0x05, 0x07] := by decide

theorem rTableUnvalued_place : ∀ name ∈ rTableUnvalued,
    tableValue rTable name = none ∧ (placeIn rTableUnvalued name).isSome := by decide

theorem iTableUnvalued_place : ∀ name ∈ iTableUnvalued, tableValue rTable name = none ∧
    placeIn rTableUnvalued name = none ∧ tableValue iTable name = none ∧ (placeIn iTableUnvalued name).isSome := by
  decide

theorem shapeOf_rTableUnvalued {name : Text} (h : name ∈ rTableUnvalued) :
    ∃ shape, shapeOf name = some shape ∧ Unexecuted shape := by
  obtain ⟨hvalue, hplace⟩ := rTableUnvalued_place name h
  obtain ⟨k, hk⟩ := Option.isSome_iff_exists.mp hplace
  exact ⟨_, by simp only [shapeOf, hvalue, hk], .r (unexecutedFunct_not_mem (Config.tableFunct k))⟩

theorem shapeOf_iTableUnvalued {name : Text} (h : name ∈ iTableUnvalued) :
    ∃ shape, shapeOf name = some shape ∧ Unexecuted shape := by
  obtain ⟨hr, hrPlace, hi, hplace⟩ := iTableUnvalued_place name h
  obtain ⟨k, hk⟩ := Option.isSome_iff_exists.mp hplace
  exact ⟨_, by simp only [shapeOf, hr, hrPlace, hi, hk], .i (unexecutedOpcode_not_mem (Config.tableOpcode k))⟩

theorem shapeOf_valuedUnexecuted {name : Text}
    (h : name ∈ ["addi".toList, "addiu".toList, "syscall".toList]) :
    ∃ shape, shapeOf name = some shape ∧ Unexecuted shape := by
  simp only [List.mem_cons, List.not_mem_nil, or_false] at h
  rcases h with rfl | rfl | rfl
  · exact ⟨_, shapeOf_i ("addi", 0x08) (by decide), .i (by decide)⟩
  · exact ⟨_, shapeOf_i ("addiu", 0x09) (by decide), .i (by decide)⟩
  · exact ⟨_, shapeOf_r ("syscall", 0x0C) (by decide), .r (by decide)⟩

theorem codes_of_assembleR {funct : Code6} {args : List Text} {w : Word} (h : assembleR funct args = .ok w) :
    opcodeOf w = 0x00 ∧ functOf w = funct := by
  unfold assembleR at h
  split at h
  · split at h
    · cases h
      exact ⟨opcodeOf_packR .., by rw [createR, functOf_packR, BitVec.ofNat_toNat, BitVec.setWidth_eq]⟩
    · cases h
  · cases h

theorem opcode_of_assembleI {opcode : Code6} {args : List Text} {w : Word} (h : assembleI opcode args = .ok w) :
    opcodeOf w = opcode := by
  unfold assembleI at h
  split at h
  · split at h
    · split at h
      · split_ifs at h
        cases h
        rw [createI, opcodeOf_packI, BitVec.ofNat_toNat, BitVec.setWidth_eq]
      · cases h
    · cases h
  · cases h

theorem step_faults_of_unexecuted {st : Statement} {shape : Shape} {w : Word} (hshape : shapeOf st.mnemonic = some shape)
    (hun : Unexecuted shape) (hw : assembleStatement st = .ok w) {s : State} (hf : Fetches s w) :
    ∃ t f, step s = .next t ∧ t.status = .faulted f := by
  cases hun with
  | r hfunct =>
    rw [assembleStatement_r hshape] at hw
    obtain ⟨ho, rfl⟩ := codes_of_assembleR hw
    simp only [List.mem_cons, List.not_mem_nil, or_false, not_or] at hfunct
    obtain ⟨h20, h22, h24, h25⟩ := hfunct
    obtain ⟨t, hstep, honly⟩ := unknownFunctFaults s w hf ho h20 h22 h24 h25
    exact ⟨t, _, hstep, honly.1⟩
  | i hopcode =>
    rw [assembleStatement_i hshape] at hw
    obtain rfl := opcode_of_assembleI hw
    obtain ⟨t, hstep, honly⟩ := unknownOpcodeFaults s w hf hopcode
    exact ⟨t, _, hstep, honly.1⟩

/-- Settles O59: every such mnemonic has a shape whose words the core does not execute, whatever the free values. -/
theorem tableOnlyMnemonicsFault : Obligations.TableOnlyMnemonicsFault := by
  unfold Obligations.TableOnlyMnemonicsFault
  intro name hname args w hw s hf
  obtain ⟨shape, hshape, hun⟩ : ∃ shape, shapeOf name = some shape ∧ Unexecuted shape := by
    rcases List.mem_append.mp hname with hname | hname
    · rcases List.mem_append.mp hname with hname | hname
      · exact shapeOf_rTableUnvalued hname
      · exact shapeOf_iTableUnvalued hname
    · exact shapeOf_valuedUnexecuted hname
  exact step_faults_of_unexecuted hshape hun hw hf

end Sys2Proof.Proofs.AssemblerWords
